-- ==== Sys2Proof/Word.lean ====
section
/-!
DEFINITION. The word types of the block, by the widths the spec gives them
(00_scope.md R8, R10; 10_state.md R18; 20_memory.md R44).
-/

namespace Sys2Proof

/-- One host-visible register word and one command word (R18, R41, R57). -/
abbrev Word := BitVec 32

/-- A 64-bit quantity held in two register words (R25 to R31, R42). -/
abbrev DWord := BitVec 64

/-- One payload byte on `P_IN` or `P_OUT` (R34, R44). -/
abbrev Byte := BitVec 8

/-- The `OPCODE` field, bits 3:0 of a command word (R57). -/
abbrev Opcode := BitVec 4

/-- A stream or framed bit, "value in {0,1}" (R15): `true` is 1. -/
abbrev Bit := Bool

end Sys2Proof
end

