-- ==== Sys2Proof/Config.lean ====
section
/-!
DEFINITION. What an implementation fixes (00_scope.md R8). The spec leaves one parameter open, `SAMPLE_W`
(92_eei_decisions.md P1): every operation of the engine takes it as an argument, and `Config.sampleW` is its value
for this hardware. No behaviour of this spec is an open value, so no constant here is opaque.
-/

namespace Sys2Proof.Config

/-- `SAMPLE_W`, bits per sample on the sample streams: 16 for this hardware (R8, R20; log entry 7). -/
abbrev sampleW : Nat := 16

/-- `FMT_VER`, the wire-format version: 1, "no other `FMT_VER` value occurs" (R20). -/
abbrev fmtVer : Nat := 1

/-- The number of register word indices, 0 to 63 (R8, R38). -/
abbrev numIndices : Nat := 64

end Sys2Proof.Config
end

