-- ==== Sys2Proof/Syntax.lean ====
section
/-!
DEFINITION. The command set (00_scope.md R3): four commands, one constructor per row of the opcode table
(30_encoding.md R58). A command word carries no operands and no immediates (R60), so no constructor has an argument.
-/

namespace Sys2Proof

/-- The four commands of R58; "Nothing else is executed by the block" (R3). -/
inductive Instr where
  /-- `FRAME`, opcode 0x1: the Bit Framer alone (R79). -/
  | frame
  /-- `EMBED`, opcode 0x2: `embed(S, frame(P))` (R87). -/
  | embed
  /-- `EMBED_RAW`, opcode 0x3: `embed(S, bits)` for a bit sequence the host gives (R91). -/
  | embedRaw
  /-- `EXTRACT`, opcode 0x4: the Extractor (R98). -/
  | extract
  deriving DecidableEq, Repr

end Sys2Proof
end

