-- ==== Sys2Proof/WellFormed.lean ====
section
/-!
DEFINITION. What is well formed: a command word (30_encoding.md R57, R59) and a register index (20_memory.md R41).
The four commands carry no operands (R60), so a command itself has nothing to check.
-/

namespace Sys2Proof

/-- The `RSVD` field, bits 31:4 of a command word (R57). -/
def rsvdField (d : Word) : BitVec 28 := d.extractLsb' 4 28

/-- The `OPCODE` field, bits 3:0 of a command word (R57). -/
def opcodeField (d : Word) : Opcode := d.extractLsb' 0 4

/-- A command word is legal "exactly when `RSVD = 0` and `OPCODE` is 0x1, 0x2, 0x3 or 0x4" (R59). -/
def legalWord (d : Word) : Bool :=
  rsvdField d == 0#28 && [1#4, 2#4, 3#4, 4#4].contains (opcodeField d)

/-- A host step names an index below 64; any other index "spells no access" (R41). -/
def legalIndex (i : Nat) : Bool := decide (i < Config.numIndices)

/-- A command has no operand field that could be out of range (R60, R61): every command is well formed. -/
def Instr.wellFormed : Instr → Bool
  | .frame => true
  | .embed => true
  | .embedRaw => true
  | .extract => true

end Sys2Proof
end

