-- ==== Sys2Proof/Decode.lean ====
section
/-!
DEFINITION. The decoder, total on the 32 bits of a command word, and after it the encoder (30_encoding.md R57 to R61).
"the decoder reads bits 31:0 of one word and nothing else" (R61).
-/

namespace Sys2Proof

/-- Why a word is no command (R59). The machine answers both with IllegalCommand (R69). -/
inductive DecodeError where
  /-- `RSVD` is not zero (R57, R59). -/
  | reservedBitsSet
  /-- `RSVD` is zero and `OPCODE` is 0x0 or 0x5 to 0xF (R58). -/
  | noSuchOpcode (op : Opcode)
  deriving DecidableEq, Repr

/-- The opcode map of R58, read from the field to the command. -/
def opcodeInstr (op : Opcode) : Option Instr :=
  if op = 0x1#4 then some .frame
  else if op = 0x2#4 then some .embed
  else if op = 0x3#4 then some .embedRaw
  else if op = 0x4#4 then some .extract
  else none

/-- Decoding a command word: the reserved bits first, then the opcode map (R57 to R59). -/
def decode (d : Word) : Except DecodeError Instr :=
  if rsvdField d ≠ 0#28 then .error .reservedBitsSet
  else match opcodeInstr (opcodeField d) with
    | some i => .ok i
    | none => .error (.noSuchOpcode (opcodeField d))

/-- The `OPCODE` of a command (R58). -/
def opcodeOf : Instr → Opcode
  | .frame => 0x1#4
  | .embed => 0x2#4
  | .embedRaw => 0x3#4
  | .extract => 0x4#4

/-- The command word of a command: `RSVD = 0` above the opcode (R57, R58). -/
def encode (i : Instr) : Word := 0#28 ++ opcodeOf i

/-- The command word whose bits are `w`, numbered as the opcode table numbers them; bits from `nbits` on are 0. -/
def wordOfTable (nbits w : Nat) : Word := BitVec.ofNat 32 (w % 2 ^ nbits)

/-- The command the decoder reads from a word of the opcode table. A command word has 32 bits (R57): a wider one is none. -/
def decodeTableWord (nbits w : Nat) : Option Instr :=
  if 32 < nbits then none
  else match decode (wordOfTable nbits w) with
    | .ok i => some i
    | .error _ => none

end Sys2Proof
end

