-- ==== Sys2Proof/Machine/State.lean ====
section
/-!
DEFINITION. The state of the block (10_state.md), the host-side queues it is connected to (R34), the level of its
reset input (70_reset_and_hazards.md R125), and the model's own record of which agent moves next (20_memory.md R50).
Plain data throughout. The block has no memory (R37), no program counter and no general registers (R16).
What holds samples takes their width `SAMPLE_W` as its argument (R8, P1); where a type is written without it, the width
is this hardware's (log entry 7).
-/

namespace Sys2Proof.Machine

/-- The values of `STATUS.ERR_CODE`: "takes exactly these values" (60_exceptions.md R105). The reserved codes 6 to 15
are "never written", so the type has no name for them (log entry 11). -/
inductive ErrCode where
  /-- Code 0: success, or no command yet. -/
  | noError
  /-- Code 1 (R106). -/
  | capacityExceeded
  /-- Code 2 (R107). -/
  | payloadTooLarge
  /-- Code 3 (R108). -/
  | truncatedWatermark
  /-- Code 4 (R109). -/
  | insufficientSamples
  /-- Code 5 (R110). -/
  | illegalCommand
  deriving DecidableEq, Repr

/-- The internal working state `w` of R33. -/
structure Work where
  /-- `w.op`: opcode of the running command. -/
  op : Opcode
  /-- `w.len`: latched payload length `L`. -/
  len : Word
  /-- `w.n`: latched sample count `N`. -/
  n : DWord
  /-- `w.nbits`: number of leading samples that receive a bit. -/
  nbits : DWord
  /-- `w.total`: number of beats the command performs; for EXTRACT 32 until the length is decoded. -/
  total : DWord
  /-- `w.len_sr`: length shift register. -/
  lenSr : Word
  /-- `w.byte_sr`: the current payload byte, or the byte being assembled. -/
  byteSr : Byte
  deriving DecidableEq, Repr

/-- Everything the block itself holds: the host-visible registers of R18 and the working fields of R33.
`INFO`, `CMD` and `CTRL.SRST` hold no state (R19, R22, R126); `STATUS.ERR` and `IRQ` are derived (R23, R35). -/
structure Block where
  /-- `CTRL.IE`, interrupt enable (R21). -/
  ie : Bool
  /-- `STATUS.BUSY` (R23). -/
  busy : Bool
  /-- `STATUS.DONE` (R23). -/
  done : Bool
  /-- `STATUS.ERR_CODE` (R23, R105). -/
  errCode : ErrCode
  /-- `STATUS.CMD_IGNORED` (R23). -/
  cmdIgnored : Bool
  /-- `STATUS.OP` (R23, R24). -/
  op : Opcode
  /-- `PAYLOAD_LEN` (R25). -/
  payloadLen : DWord
  /-- `SAMPLE_COUNT` (R26). -/
  sampleCount : DWord
  /-- `BIT_COUNT` (R27). -/
  bitCount : DWord
  /-- `ERR_A` (R28). -/
  errA : DWord
  /-- `ERR_B` (R29). -/
  errB : DWord
  /-- `DECODED_LEN` (R30). -/
  decodedLen : Word
  /-- `POS`, the position counter (R17, R31). -/
  pos : DWord
  /-- The working fields (R33). -/
  w : Work
  deriving DecidableEq, Repr

/-- The six host-side queues of R34, oldest item first. They belong to the host; `w` is `SAMPLE_W`. -/
structure Streams (w : Nat) where
  /-- `S_IN`: samples offered and not yet taken. -/
  sIn : List (BitVec w)
  /-- `S_OUT`: samples given and not yet collected. -/
  sOut : List (BitVec w)
  /-- `P_IN`: payload bytes offered and not yet taken. -/
  pIn : List Byte
  /-- `P_OUT`: payload bytes given and not yet collected. -/
  pOut : List Byte
  /-- `B_IN`: bits offered and not yet taken. -/
  bIn : List Bit
  /-- `B_OUT`: bits given and not yet collected. -/
  bOut : List Bit
  deriving DecidableEq, Repr

/-- One move of one of the two agents, host and engine (R50), or of the reset input (R125). -/
inductive Move (sw : Nat := Config.sampleW) where
  /-- The engine's turn: it takes its next beat if that beat is enabled (R51, R72). -/
  | engine
  /-- A host register read, `RD` (R39, R64). -/
  | read (index : Nat)
  /-- A host register write, `WR` (R40, R64). -/
  | write (index : Nat) (d : Word)
  /-- `OFFER_S`: append a sample to `S_IN` (R64). -/
  | offerS (v : BitVec sw)
  /-- `OFFER_P`: append a byte to `P_IN` (R64). -/
  | offerP (v : Byte)
  /-- `OFFER_B`: append a bit to `B_IN` (R64). -/
  | offerB (v : Bit)
  /-- `COLLECT_S`: remove the head of `S_OUT` (R64). -/
  | collectS
  /-- `COLLECT_P`: remove the head of `P_OUT` (R64). -/
  | collectP
  /-- `COLLECT_B`: remove the head of `B_OUT` (R64). -/
  | collectB
  /-- `WAIT`: let the engine take beats until none is enabled (R64). -/
  | wait
  /-- `WAIT_DONE`: read `STATUS` until its bit 1 reads 1 (R65). -/
  | waitDone
  /-- The reset input is asserted (R125). -/
  | assertReset
  /-- The reset input is released (R125). -/
  | releaseReset
  deriving DecidableEq, Repr

/-- What the host has got back: the word of a register read, or a collected item (R130). -/
inductive Seen (sw : Nat := Config.sampleW) where
  /-- The word a read of `index` returned (R39). -/
  | reg (index : Nat) (d : Word)
  /-- A sample collected from `S_OUT`. -/
  | sample (v : BitVec sw)
  /-- A byte collected from `P_OUT`. -/
  | byte (v : Byte)
  /-- A bit collected from `B_OUT`. -/
  | bit (v : Bit)
  deriving DecidableEq, Repr

/-- The machine of sample width `sw` (R8): the block, the host-side queues, the reset input's level, and the model's own
two fields. `State` alone is this hardware's machine. -/
structure State (sw : Nat := Config.sampleW) where
  /-- The block (R18, R33). -/
  block : Block
  /-- The host-side queues (R34). -/
  streams : Streams sw
  /-- The level of the reset input: `true` while it is asserted (R125). -/
  rst : Bool
  /-- MODEL'S OWN: the moves still to come, next one first, which stand for the interleaving of R50 (log entry 2). -/
  agenda : List (Move sw)
  /-- MODEL'S OWN: what the host has got back so far, oldest first (log entry 16). -/
  seen : List (Seen sw)
  deriving DecidableEq, Repr

/-- The reset values of the working fields: "all 0" (R126). -/
def Work.reset : Work :=
  { op := 0#4, len := 0#32, n := 0#64, nbits := 0#64, total := 0#64, lenSr := 0#32, byteSr := 0#8 }

/-- The reset values of the block, field by field (R126): "No field is left unspecified". -/
def Block.reset : Block :=
  { ie := false, busy := false, done := false, errCode := .noError, cmdIgnored := false, op := 0#4,
    payloadLen := 0#64, sampleCount := 0#64, bitCount := 0#64, errA := 0#64, errB := 0#64,
    decodedLen := 0#32, pos := 0#64, w := Work.reset }

/-- Host-side queues that hold nothing. -/
def Streams.empty {w : Nat} : Streams w :=
  { sIn := [], sOut := [], pIn := [], pOut := [], bIn := [], bOut := [] }

/-- The machine of any sample width right after reset (R126, R128), with a host that has offered nothing, has nothing left
to collect and has no move pending (DESIGN CHOICE, log entry 6). -/
def State.resetAt (sw : Nat) : State sw :=
  { block := Block.reset, streams := Streams.empty, rst := false, agenda := [], seen := [] }

/-- The machine right after reset at this hardware's `SAMPLE_W` (R8, R126, R128). -/
def State.reset : State := State.resetAt Config.sampleW

/-- Why the machine stops. -/
inductive Fault where
  /-- Raised by the engine's turn when `BUSY = 1` and `w.op` is no command's opcode, a case the dispatch of R72 has no
  arm for. Safe: the machine stops where the spec gives no beat, and no run from reset reaches it (log entry 10). -/
  | noRunningCommand (op : Opcode)
  deriving DecidableEq, Repr

/-- What the model refuses. -/
inductive Refusal where
  /-- Raised by an arm of `exec` whose command has no meaning yet; no arm raises it now. Safe. -/
  | notModelled (mnemonic : String)
  /-- Raised by a register read or write whose index is not 0 to 63: "an index outside that range is refused by the
  model (it spells no access)" (R41). Safe. -/
  | indexOutOfRange (index : Nat)
  deriving DecidableEq, Repr

end Sys2Proof.Machine
end

