-- ==== Sys2Proof/Machine/Ops.lean ====
section
/-!
DEFINITION. The shared operations of the command rules (40_command_control.md): bits of words, the end of a command
(`complete`, and `fail`, this block's one way to take an error, R104), the acknowledgement that ends a host's handling
of it (R115), acceptance and start, reset, and the updates of the machine state every step is built from.
-/

namespace Sys2Proof.Machine

/-! ### Bits -/

/-- Bit 0 of a sample, `s[0]` (R10, R94). -/
def lsb {sw : Nat} (s : BitVec sw) : Bit := s.getLsbD 0

/-- `setlsb(s, b) = s[SAMPLE_W-1:1] ++ b` (R83), for every `SAMPLE_W`; for `SAMPLE_W = 1` it is `b`. -/
def setLsb {sw : Nat} (s : BitVec sw) (b : Bit) : BitVec sw :=
  (s.extractLsb' 1 (sw - 1) ++ BitVec.ofBool b).setWidth sw

/-- `v[k] <- b`: bit `k` of `v` becomes `b` and every other bit is kept (R99). -/
def writeBit {n : Nat} (v : BitVec n) (k : Nat) (b : Bit) : BitVec n :=
  (v &&& ~~~(1#n <<< k)) ||| ((BitVec.ofBool b).setWidth n <<< k)

/-! ### Ending a command (R71) -/

/-- `complete(code)` (R71). -/
def complete (code : ErrCode) (b : Block) : Block :=
  { b with busy := false, done := true, errCode := code }

/-- `fail(code, a, b)` (R71): the error record of R114. Control goes nowhere; the engine is idle after it (R104). -/
def fail (code : ErrCode) (a b : DWord) (blk : Block) : Block :=
  complete code { blk with errA := a, errB := b }

/-- The W1C write that ends the host's handling of a completion (R73, R115): bit 1 clears `DONE`, bit 8 clears
`CMD_IGNORED`, every other bit of `d` is ignored. -/
def acknowledge (d : Word) (b : Block) : Block :=
  { b with done := if d.getLsbD 1 then false else b.done,
           cmdIgnored := if d.getLsbD 8 then false else b.cmdIgnored }

/-! ### Accepting and starting a command (R67, R68) -/

/-- The first part of acceptance (R67): the result state of the previous command is cleared and `OP` is recorded. -/
def acceptClear (op : Opcode) (b : Block) : Block :=
  { b with done := false, errCode := .noError, cmdIgnored := false, op := op, errA := 0#64, errB := 0#64,
           decodedLen := 0#32, pos := 0#64,
           w := { op := op, len := 0#32, n := 0#64, nbits := 0#64, total := 0#64, lenSr := 0#32, byteSr := 0#8 } }

/-- The last part of `start(d)` (R68), after the command's start part: a failed start has `DONE = 1` already; a command
with no beat completes; every other one sets `BUSY`. -/
def launch (b : Block) : Block :=
  if b.done then b
  else if b.w.total = 0#64 then complete .noError b
  else { b with busy := true }

/-- A write to `CMD` while busy (R70): ignored, "except that `STATUS.CMD_IGNORED <- 1`". -/
def ignoreCommand (b : Block) : Block := { b with cmdIgnored := true }

/-- A legal command word with opcode `op` and start part `start` reaches the block: it is accepted while idle (R67, R68)
and ignored while busy (R70). -/
def acceptCommand (op : Opcode) (start : Block → Block) (b : Block) : Block :=
  if b.busy then ignoreCommand b else launch (start (acceptClear op b))

/-- `illegal(d)` (R69): `fail(5, zext_64(d), 0)`. -/
def illegal (d : Word) (b : Block) : Block := fail .illegalCommand (d.setWidth 64) 0#64 b

/-- An illegal command word reaches the block (R59, R67 to R70). -/
def acceptIllegal (d : Word) (b : Block) : Block :=
  if b.busy then ignoreCommand b else illegal d (acceptClear (opcodeField d) b)

/-! ### The end of a beat (R72) -/

/-- `POS <- POS + 1`. -/
def advance (b : Block) : Block := { b with pos := b.pos + 1#64 }

/-- The end of a beat (R72): `POS <- POS + 1`, then `complete(0)` when `POS = w.total`. -/
def endBeat (b : Block) : Block :=
  if (advance b).pos = (advance b).w.total then complete .noError (advance b) else advance b

/-! ### Updates of the machine state -/

/-- The machine with another block. -/
def State.withBlock {sw : Nat} (s : State sw) (b : Block) : State sw := { s with block := b }

/-- The machine with other host-side queues. -/
def State.withStreams {sw : Nat} (s : State sw) (q : Streams sw) : State sw := { s with streams := q }

/-- The machine with another level of the reset input. -/
def State.withRst {sw : Nat} (s : State sw) (r : Bool) : State sw := { s with rst := r }

/-- The machine with other moves to come. -/
def State.withAgenda {sw : Nat} (s : State sw) (ms : List (Move sw)) : State sw := { s with agenda := ms }

/-- The machine after the host got one more thing back. -/
def State.withSeen {sw : Nat} (s : State sw) (x : Seen sw) : State sw := { s with seen := s.seen ++ [x] }

/-- The one way a host register access changes the block: "While reset is asserted no host access and no beat has any
effect" (R125); otherwise the block becomes `f` of itself. -/
def State.onBlock {sw : Nat} (s : State sw) (f : Block → Block) : State sw :=
  if s.rst then s else s.withBlock (f s.block)

/-- The reset input is asserted (R125): one atomic step that gives every register and working field its reset value,
whatever the engine was doing, and leaves the host-side queues as they are (R126). -/
def State.assertReset {sw : Nat} (s : State sw) : State sw := (s.withBlock Block.reset).withRst true

/-- The reset input is released (R125). -/
def State.releaseReset {sw : Nat} (s : State sw) : State sw := s.withRst false

end Sys2Proof.Machine
end

