-- ==== Sys2Proof/Machine/Operands.lean ====
section
/-!
DEFINITION. The operands of the commands (30_encoding.md R60): 64-bit values held in two register words
(20_memory.md R42), and the framed bit count of a payload length (R9, R78).
-/

namespace Sys2Proof.Machine

/-- `X_LO`, which holds `X[31:0]` (R42). -/
def loWord (x : DWord) : Word := x.extractLsb' 0 32

/-- `X_HI`, which holds `X[63:32]` (R42). -/
def hiWord (x : DWord) : Word := x.extractLsb' 32 32

/-- `X_HI ++ X_LO` (R18, R60). -/
def joinWords (hi lo : Word) : DWord := hi ++ lo

/-- `X[31:0] <- d`; the other half is kept (R40). -/
def withLo (x : DWord) (d : Word) : DWord := joinWords (hiWord x) d

/-- `X[63:32] <- d`; the other half is kept (R40). -/
def withHi (x : DWord) (d : Word) : DWord := joinWords d (loWord x)

/-- `32 + 8 * zext_64(len)`, the framed bit count (R9, R79, R87, R100). It never wraps (R9; log entry 20). -/
def framedCount (len : Word) : DWord := 32#64 + 8#64 * len.setWidth 64

/-- `PAYLOAD_LEN[63:32] != 0`: the payload length is 2^32 or more (R25, R107). -/
def lenTooLarge (payloadLen : DWord) : Bool := hiWord payloadLen != 0#32

/-- The largest legal payload length, the second diagnostic quantity of PayloadTooLarge (R105). -/
def maxLen : DWord := 0x00000000FFFFFFFF#64

end Sys2Proof.Machine
end

