-- ==== Sys2Proof/Machine/Flags.lean ====
section
/-!
DEFINITION. The words the host reads (10_state.md R19 to R23, 20_memory.md R39), the derived flag `STATUS.ERR`
(R23) and the interrupt output (R35).
-/

namespace Sys2Proof.Machine

/-- The numbers of the error codes (R105). -/
def errCodeBits : ErrCode → BitVec 4
  | .noError => 0#4
  | .capacityExceeded => 1#4
  | .payloadTooLarge => 2#4
  | .truncatedWatermark => 3#4
  | .insufficientSamples => 4#4
  | .illegalCommand => 5#4

/-- `STATUS.ERR = (ERR_CODE != 0)` (R23). -/
def errFlag (b : Block) : Bool := errCodeBits b.errCode != 0#4

/-- `IRQ = CTRL.IE and STATUS.DONE`, level-sensitive, no state of its own (R35, R116). -/
def irq (b : Block) : Bool := b.ie && b.done

/-- The `INFO` word: `SAMPLE_W` in bits 7:0, `FMT_VER` in bits 15:8, the rest 0 (R19, R20). -/
def infoWord (sw : Nat) : Word := 0#16 ++ BitVec.ofNat 8 Config.fmtVer ++ BitVec.ofNat 8 sw

/-- The `CTRL` word: `SRST` reads 0, `IE` is bit 1 (R21, R39). -/
def ctrlWord (b : Block) : Word := (BitVec.ofBool b.ie).setWidth 32 <<< 1

/-- The `STATUS` word, field by field from bit 31 down (R23). -/
def statusWord (b : Block) : Word :=
  0#16 ++ b.op ++ 0#3 ++ BitVec.ofBool b.cmdIgnored ++ errCodeBits b.errCode ++ 0#1 ++
    BitVec.ofBool (errFlag b) ++ BitVec.ofBool b.done ++ BitVec.ofBool b.busy

/-- `read(i)` (R39): the word at index `i`, for a block with `SAMPLE_W = sw`. -/
def readWord (sw : Nat) (b : Block) (i : Nat) : Word :=
  match i with
  | 0 => infoWord sw
  | 1 => ctrlWord b
  | 2 => 0#32
  | 3 => statusWord b
  | 4 => loWord b.payloadLen
  | 5 => hiWord b.payloadLen
  | 6 => loWord b.sampleCount
  | 7 => hiWord b.sampleCount
  | 8 => loWord b.bitCount
  | 9 => hiWord b.bitCount
  | 10 => loWord b.errA
  | 11 => hiWord b.errA
  | 12 => loWord b.errB
  | 13 => hiWord b.errB
  | 14 => b.decodedLen
  | 15 => loWord b.pos
  | 16 => hiWord b.pos
  | _ => 0#32

end Sys2Proof.Machine
end

