-- ==== Sys2Proof/Machine/Framer.lean ====
section
/-!
DEFINITION. The Bit Framer and the FRAME command (41_framer.md).
-/

namespace Sys2Proof.Machine

/-- The framer's bit at position `k = POS`, with the block and the rest of `P_IN` after it (R80, R88): a length bit for
`k < 32`, else payload bit `(k - 32) mod 8`. At bit 0 of a byte the byte is taken from `P_IN`; `none` while it is empty. -/
def framerBit (b : Block) (pIn : List Byte) : Option (Bit × Block × List Byte) :=
  if b.pos.toNat < 32 then some (b.w.len.getLsbD b.pos.toNat, b, pIn)
  else if (b.pos.toNat - 32) % 8 = 0 then
    match pIn with
    | [] => none
    | x :: rest => some (x.getLsbD 0, { b with w := { b.w with byteSr := x } }, rest)
  else some (b.w.byteSr.getLsbD ((b.pos.toNat - 32) % 8), b, pIn)

/-- `start_FRAME` (R79). -/
def startFrame (b : Block) : Block :=
  if lenTooLarge b.payloadLen then fail .payloadTooLarge b.payloadLen maxLen b
  else { b with w := { b.w with len := loWord b.payloadLen, total := framedCount (loWord b.payloadLen) } }

/-- `beat_FRAME` (R80); `none` while the beat is not enabled (R45). -/
def beatFrame {sw : Nat} (b : Block) (q : Streams sw) : Option (Block × Streams sw) :=
  match framerBit b q.pIn with
  | none => none
  | some (bit, b', rest) => some (endBeat b', { q with pIn := rest, bOut := q.bOut ++ [bit] })

/-- FRAME: its command word reaches the block (R67 to R70, R79). Its beats are `beatFrame`. -/
def execFrame {sw : Nat} (s : State sw) : Host.Outcome (State sw) Fault Refusal :=
  .next (s.onBlock (acceptCommand (opcodeOf .frame) startFrame))

end Sys2Proof.Machine
end

