-- ==== Sys2Proof/Machine/Embedder.lean ====
section
/-!
DEFINITION. The Embedder and the EMBED and EMBED_RAW commands (42_embedder.md).
-/

namespace Sys2Proof.Machine

/-- `start_EMBED` (R87): PayloadTooLarge first, then CapacityExceeded (R112). `w.len` and `w.nbits` are written before
the capacity check, so they keep those values when it fails. -/
def startEmbed (b : Block) : Block :=
  if lenTooLarge b.payloadLen then fail .payloadTooLarge b.payloadLen maxLen b
  else
    let len := loWord b.payloadLen
    let b1 := { b with w := { b.w with len := len, nbits := framedCount len } }
    if b.sampleCount < framedCount len then fail .capacityExceeded (framedCount len) b.sampleCount b1
    else { b1 with w := { b1.w with n := b.sampleCount, total := b.sampleCount } }

/-- `beat_EMBED` (R88); `none` while the beat is not enabled (R45). -/
def beatEmbed {sw : Nat} (b : Block) (q : Streams sw) : Option (Block × Streams sw) :=
  match q.sIn with
  | [] => none
  | s :: rest =>
    if b.pos < b.w.nbits then
      match framerBit b q.pIn with
      | none => none
      | some (bit, b', pRest) =>
        some (endBeat b', { q with sIn := rest, pIn := pRest, sOut := q.sOut ++ [setLsb s bit] })
    else some (endBeat b, { q with sIn := rest, sOut := q.sOut ++ [s] })

/-- `start_EMBED_RAW` (R91). -/
def startEmbedRaw (b : Block) : Block :=
  if b.sampleCount < b.bitCount then fail .capacityExceeded b.bitCount b.sampleCount b
  else { b with w := { b.w with nbits := b.bitCount, n := b.sampleCount, total := b.sampleCount } }

/-- `beat_EMBED_RAW` (R92); `none` while the beat is not enabled (R45). -/
def beatEmbedRaw {sw : Nat} (b : Block) (q : Streams sw) : Option (Block × Streams sw) :=
  match q.sIn with
  | [] => none
  | s :: rest =>
    if b.pos < b.w.nbits then
      match q.bIn with
      | [] => none
      | bit :: bRest =>
        some (endBeat b, { q with sIn := rest, bIn := bRest, sOut := q.sOut ++ [setLsb s bit] })
    else some (endBeat b, { q with sIn := rest, sOut := q.sOut ++ [s] })

/-- EMBED: its command word reaches the block (R67 to R70, R87). Its beats are `beatEmbed`. -/
def execEmbed {sw : Nat} (s : State sw) : Host.Outcome (State sw) Fault Refusal :=
  .next (s.onBlock (acceptCommand (opcodeOf .embed) startEmbed))

/-- EMBED_RAW: its command word reaches the block (R67 to R70, R91). Its beats are `beatEmbedRaw`. -/
def execEmbedRaw {sw : Nat} (s : State sw) : Host.Outcome (State sw) Fault Refusal :=
  .next (s.onBlock (acceptCommand (opcodeOf .embedRaw) startEmbedRaw))

end Sys2Proof.Machine
end

