-- ==== Sys2Proof/Machine/Extractor.lean ====
section
/-!
DEFINITION. The Extractor and the EXTRACT command (43_extractor.md).
-/

namespace Sys2Proof.Machine

/-- `start_EXTRACT` (R98). -/
def startExtract (b : Block) : Block :=
  if b.sampleCount < 32#64 then fail .insufficientSamples 32#64 b.sampleCount b
  else { b with w := { b.w with n := b.sampleCount, total := 32#64 } }

/-- `length_check()` (R100), at the end of the beat with `k = 31`. -/
def lengthCheck (b : Block) : Block :=
  let b1 := { b with decodedLen := b.w.lenSr }
  let need := framedCount b.w.lenSr
  if b.w.n < need then fail .truncatedWatermark need b.w.n b1
  else if b.w.lenSr = 0#32 then complete .noError b1
  else { b1 with w := { b1.w with total := need } }

/-- The beat with `k = POS < 32` (R99): length bit `k` is `s[0]`, and the beat with `k = 31` ends with the length check. -/
def lengthBeat (b : Block) (bit : Bit) : Block :=
  let b1 := { b with w := { b.w with lenSr := writeBit b.w.lenSr b.pos.toNat bit } }
  if b.pos.toNat = 31 then lengthCheck (advance b1) else advance b1

/-- `w.byte_sr` after payload bit `j = (k - 32) mod 8` is written (R99). -/
def payloadByte (b : Block) (bit : Bit) : Byte := writeBit b.w.byteSr ((b.pos.toNat - 32) % 8) bit

/-- `beat_EXTRACT` (R99); `none` while the beat is not enabled (R45). A byte is given whole, at its bit 7. -/
def beatExtract {sw : Nat} (b : Block) (q : Streams sw) : Option (Block × Streams sw) :=
  match q.sIn with
  | [] => none
  | s :: rest =>
    if b.pos.toNat < 32 then some (lengthBeat b (lsb s), { q with sIn := rest })
    else
      let byte := payloadByte b (lsb s)
      let b1 := { b with w := { b.w with byteSr := byte } }
      some (endBeat b1,
        { q with sIn := rest, pOut := if (b.pos.toNat - 32) % 8 = 7 then q.pOut ++ [byte] else q.pOut })

/-- EXTRACT: its command word reaches the block (R67 to R70, R98). Its beats are `beatExtract`. -/
def execExtract {sw : Nat} (s : State sw) : Host.Outcome (State sw) Fault Refusal :=
  .next (s.onBlock (acceptCommand (opcodeOf .extract) startExtract))

end Sys2Proof.Machine
end

