-- ==== Sys2Proof/Machine/Engine.lean ====
section
/-!
DEFINITION. The command set at every sample width (00_scope.md R8), and the engine: which beat it takes (40_command_control.md R72), when it waits (20_memory.md R45, R51), and its
turn as one atomic step (R14, R50).
-/

namespace Sys2Proof.Machine

/-- The command `i`, written to `CMD` of the machine of any sample width (R67 to R70, R8); at this hardware's width it is
`exec` (`exec_eq_execAt`; log entry 7). -/
def execAt {sw : Nat} (i : Instr) (s : State sw) : Host.Outcome (State sw) Fault Refusal :=
  match i with
  | .frame => execFrame s
  | .embed => execEmbed s
  | .embedRaw => execEmbedRaw s
  | .extract => execExtract s

/-- The beat of a command (R72); `none` while an input item the beat takes is missing (R45). -/
def beatOf {sw : Nat} (i : Instr) (b : Block) (q : Streams sw) : Option (Block × Streams sw) :=
  match i with
  | .frame => beatFrame b q
  | .embed => beatEmbed b q
  | .embedRaw => beatEmbedRaw b q
  | .extract => beatExtract b q

/-- The engine has a beat to take now: it runs a command, the reset input is released, and every item the beat takes is
present (R45, R51, R125). -/
def beatEnabled {sw : Nat} (s : State sw) : Bool :=
  !s.rst && s.block.busy &&
    match opcodeInstr s.block.w.op with
    | none => false
    | some i => (beatOf i s.block s.streams).isSome

/-- The engine's turn. Idle, or while reset is asserted, it takes no beat (R51, R125); a beat that is not enabled waits,
"with no timeout, and no partial beat happens" (R45), and all state is kept (R124; log entry 3). -/
def engineTurn {sw : Nat} (s : State sw) : Host.Outcome (State sw) Fault Refusal :=
  if s.rst || !s.block.busy then .next s
  else match opcodeInstr s.block.w.op with
    | none => .fault (.noRunningCommand s.block.w.op)
    | some i =>
      match beatOf i s.block s.streams with
      | none => .next s
      | some (b, q) => .next ((s.withBlock b).withStreams q)

end Sys2Proof.Machine
end

