-- ==== Sys2Proof/Machine/Bus.lean ====
section
/-!
DEFINITION. The host's moves: register reads and writes (20_memory.md R39 to R41), stream offers and collections
(30_encoding.md R64), and the two waits of the host notation (R64, R65); and the machine they make, which takes
`SAMPLE_W` as its argument (00_scope.md R8).
-/

namespace Sys2Proof.Machine

/-- A host write of `d` to `CMD`: a legal word is a command, any other an illegal one (R67 to R70). -/
def cmdWrite {sw : Nat} (d : Word) (s : State sw) : Host.Outcome (State sw) Fault Refusal :=
  match decode d with
  | .ok i => execAt i s
  | .error _ => .next (s.onBlock (acceptIllegal d))

/-- A host write to `CTRL` (R74): bit 0 performs a soft reset (R75) and discards bit 1; otherwise `IE` takes bit 1. -/
def ctrlWrite (d : Word) (b : Block) : Block :=
  if d.getLsbD 0 then Block.reset else { b with ie := d.getLsbD 1 }

/-- A host register write `write(i, d)` (R40, R41). -/
def regWrite {sw : Nat} (i : Nat) (d : Word) (s : State sw) : Host.Outcome (State sw) Fault Refusal :=
  if legalIndex i then
    match i with
    | 1 => .next (s.onBlock (ctrlWrite d))
    | 2 => cmdWrite d s
    | 3 => .next (s.onBlock (acknowledge d))
    | 4 => .next (s.onBlock fun b => { b with payloadLen := withLo b.payloadLen d })
    | 5 => .next (s.onBlock fun b => { b with payloadLen := withHi b.payloadLen d })
    | 6 => .next (s.onBlock fun b => { b with sampleCount := withLo b.sampleCount d })
    | 7 => .next (s.onBlock fun b => { b with sampleCount := withHi b.sampleCount d })
    | 8 => .next (s.onBlock fun b => { b with bitCount := withLo b.bitCount d })
    | 9 => .next (s.onBlock fun b => { b with bitCount := withHi b.bitCount d })
    | _ => .next s
  else .refused (.indexOutOfRange i)

/-- A host register read (R39, R41): the host gets the word back and no state of the block changes. While reset is
asserted the access has no effect (R125), so nothing comes back (log entry 5). -/
def regRead {sw : Nat} (i : Nat) (s : State sw) : Host.Outcome (State sw) Fault Refusal :=
  if legalIndex i then
    .next (if s.rst then s else s.withSeen (.reg i (readWord sw s.block i)))
  else .refused (.indexOutOfRange i)

/-- `OFFER_S` (R64). -/
def offerSample {sw : Nat} (v : BitVec sw) (s : State sw) : State sw :=
  s.withStreams { s.streams with sIn := s.streams.sIn ++ [v] }

/-- `OFFER_P` (R64). -/
def offerByte {sw : Nat} (v : Byte) (s : State sw) : State sw :=
  s.withStreams { s.streams with pIn := s.streams.pIn ++ [v] }

/-- `OFFER_B` (R64). -/
def offerBit {sw : Nat} (v : Bit) (s : State sw) : State sw :=
  s.withStreams { s.streams with bIn := s.streams.bIn ++ [v] }

/-- `COLLECT_S` (R64); from an empty queue nothing is collected (log entry 15). -/
def collectSample {sw : Nat} (s : State sw) : State sw :=
  match s.streams.sOut with
  | [] => s
  | v :: rest => (s.withStreams { s.streams with sOut := rest }).withSeen (.sample v)

/-- `COLLECT_P` (R64); from an empty queue nothing is collected (log entry 15). -/
def collectByte {sw : Nat} (s : State sw) : State sw :=
  match s.streams.pOut with
  | [] => s
  | v :: rest => (s.withStreams { s.streams with pOut := rest }).withSeen (.byte v)

/-- `COLLECT_B` (R64); from an empty queue nothing is collected (log entry 15). -/
def collectBit {sw : Nat} (s : State sw) : State sw :=
  match s.streams.bOut with
  | [] => s
  | v :: rest => (s.withStreams { s.streams with bOut := rest }).withSeen (.bit v)

/-- `WAIT` (R64): while a beat is enabled the engine takes it and the wait goes on. -/
def waitEngine {sw : Nat} (s : State sw) : Host.Outcome (State sw) Fault Refusal :=
  if beatEnabled s then engineTurn (s.withAgenda (.wait :: s.agenda)) else .next s

/-- `WAIT_DONE` (R65): one read of `STATUS`; while bit 1 has not been read as 1, the engine has its turn and the read is
repeated (log entry 2). -/
def pollDone {sw : Nat} (s : State sw) : Host.Outcome (State sw) Fault Refusal :=
  if !s.rst && (readWord sw s.block 3).getLsbD 1 then regRead 3 s
  else regRead 3 (s.withAgenda (.engine :: .waitDone :: s.agenda))

/-- One move (R50), in a state from whose agenda it is already removed. -/
def runMove {sw : Nat} (m : Move sw) (s : State sw) : Host.Outcome (State sw) Fault Refusal :=
  match m with
  | .engine => engineTurn s
  | .read i => regRead i s
  | .write i d => regWrite i d s
  | .offerS v => .next (offerSample v s)
  | .offerP v => .next (offerByte v s)
  | .offerB v => .next (offerBit v s)
  | .collectS => .next (collectSample s)
  | .collectP => .next (collectByte s)
  | .collectB => .next (collectBit s)
  | .wait => waitEngine s
  | .waitDone => pollDone s
  | .assertReset => .next s.assertReset
  | .releaseReset => .next s.releaseReset

/-- The next move: the first of the agenda, or the engine's turn where the host has none pending (log entry 2). -/
def nextMove {sw : Nat} (s : State sw) : Host.Outcome (State sw) Fault Refusal :=
  match s.agenda with
  | [] => engineTurn s
  | m :: rest => runMove m (s.withAgenda rest)

/-- The machine that takes `SAMPLE_W` as its argument, "any `SAMPLE_W >= 1`" (R8, P1); this hardware's is the one of
width `Config.sampleW` (`core_eq_machineAt`; log entry 7). -/
def machineAt (sw : Nat) : Host.Core :=
  { State := State sw, Fault := Fault, Refusal := Refusal, step := nextMove, reset := State.resetAt sw }

/-- The index of `CMD` (R18). -/
def cmdIndex : Nat := 2

/-- The machine with the host about to write `d` to `CMD`, the reset input released so that the write has its effect. -/
def State.aboutToWriteCmd {sw : Nat} (s : State sw) (d : Word) : State sw :=
  (s.withRst false).withAgenda (.write cmdIndex d :: s.agenda)

end Sys2Proof.Machine
end

