-- ==== Sys2Proof/Machine/Dispatch.lean ====
section
/-! DEFINITION. One arm per command: the effect of its command word when a host writes it to `CMD`
(40_command_control.md R67 to R70). The beats the command then takes are the engine's (`Machine/Engine.lean`, R72). -/

namespace Sys2Proof.Machine

/-- The command `i`, written to `CMD` in the state `s` (log entry 1). -/
def exec (i : Instr) (s : State) : Host.Outcome State Fault Refusal :=
  match i with
  | .frame => Sys2Proof.Machine.execFrame s
  | .embed => Sys2Proof.Machine.execEmbed s
  | .embedRaw => Sys2Proof.Machine.execEmbedRaw s
  | .extract => Sys2Proof.Machine.execExtract s

end Sys2Proof.Machine
end

