-- ==== Sys2Proof/Machine/Step.lean ====
section
/-!
DEFINITION. One atomic step of the machine: a move of the host, a beat of the engine, or a move of the reset input
(20_memory.md R50). And where a command word of the opcode table is placed so that the next step runs it.
-/

namespace Sys2Proof.Machine

/-- One step of this hardware's machine: the next move of the interleaving (R50; log entry 2), at its `SAMPLE_W` (R8). -/
def step (s : State) : Host.Outcome State Fault Refusal := nextMove s

/-- The machine whose very next step is the host's write of this command word to `CMD` (R22; log entry 12). -/
def State.withFetchWord (s : State) (nbits w : Nat) : State := s.aboutToWriteCmd (wordOfTable nbits w)

end Sys2Proof.Machine
end

