-- ==== Sys2Proof/Machine/Codec.lean ====
section
/-!
DEFINITION. The source's three functions over whole sequences, which the commands are stated to compute: `frame`
(41_framer.md R78), `embed` (42_embedder.md R86) and `extract` (43_extractor.md R94 to R97). The engine never calls them.
-/

namespace Sys2Proof.Machine

/-- How a function of the source fails, with its two conflicting sizes (R86, R105). -/
inductive CodecError where
  /-- `len(bits)` against `len(samples)` (R86, R106). -/
  | capacityExceeded (bits samples : Nat)
  /-- The payload length does not fit in 32 bits (R78, R107). -/
  | payloadTooLarge (length : Nat)
  /-- The samples the decoded length needs against those there are (R94, R108). -/
  | truncatedWatermark (need available : Nat)
  /-- Fewer than 32 samples (R94, R109). -/
  | insufficientSamples (available : Nat)
  deriving DecidableEq, Repr

/-- The length prefix: "bit `i` = `(L >> i) & 1`, for `i` in `0..31`" (R43, R78). -/
def lengthBits (len : Nat) : List Bit := (List.range 32).map fun i => len.testBit i

/-- The bits of a payload byte: "bit `i` of byte `b` is `(b >> i) & 1`, appended in increasing `i`" (R43, R78). -/
def byteBits (x : Byte) : List Bit := (List.range 8).map fun i => x.getLsbD i

/-- The framed bits of a payload: the length prefix, then the bits of each byte in order (R78). -/
def frameBits (p : List Byte) : List Bit := lengthBits p.length ++ p.flatMap byteBits

/-- `frame(P)` (R78). -/
def frame (p : List Byte) : Except CodecError (List Bit) :=
  if 2 ^ 32 ≤ p.length then .error (.payloadTooLarge p.length) else .ok (frameBits p)

/-- `framebit(L, P, k)` (R62), with `P` read as 0 past its end. -/
def framebit (len : Word) (p : List Byte) (k : Nat) : Bit :=
  if k < 32 then len.getLsbD k else (p.getD ((k - 32) / 8) 0#8).getLsbD ((k - 32) % 8)

/-- The result sequence of `embed(S, bits)` (R86): bit `k` into sample `k`, the rest passed through. -/
def embedBits {sw : Nat} (samples : List (BitVec sw)) (bits : List Bit) : List (BitVec sw) :=
  samples.mapIdx fun k s =>
    match bits[k]? with
    | some b => setLsb s b
    | none => s

/-- `embed(S, bits)` (R86). -/
def embed {sw : Nat} (samples : List (BitVec sw)) (bits : List Bit) : Except CodecError (List (BitVec sw)) :=
  if samples.length < bits.length then .error (.capacityExceeded bits.length samples.length)
  else .ok (embedBits samples bits)

/-- `sum(bit_i * 2^i)` (R95, R96): the first bit is the least significant. -/
def sumBits : List Bit → Nat
  | [] => 0
  | b :: rest => b.toNat + 2 * sumBits rest

/-- Step 1 of `extract`: the length in the least-significant bits of the first 32 samples (R95). -/
def decodedLength {sw : Nat} (samples : List (BitVec sw)) : Nat := sumBits ((samples.take 32).map lsb)

/-- Step 2 of `extract`: payload byte `n` from the samples at indices `32 + 8n .. 32 + 8n + 7` (R96). -/
def decodedByte {sw : Nat} (samples : List (BitVec sw)) (n : Nat) : Byte :=
  BitVec.ofNat 8 (sumBits (((samples.drop (32 + 8 * n)).take 8).map lsb))

/-- `extract(S)` (R94), with its checks in the order of R97. -/
def extract {sw : Nat} (samples : List (BitVec sw)) : Except CodecError (List Byte) :=
  if samples.length < 32 then .error (.insufficientSamples samples.length)
  else if samples.length < 32 + 8 * decodedLength samples then
    .error (.truncatedWatermark (32 + 8 * decodedLength samples) samples.length)
  else .ok ((List.range (decodedLength samples)).map (decodedByte samples))

/-- `sval(s)`, the two's-complement value of a sample, read in derived statements only (R11, R85). -/
def sval {sw : Nat} (s : BitVec sw) : Int := (s.toNat : Int) - 2 ^ sw * (s.getLsbD (sw - 1)).toNat

end Sys2Proof.Machine
end

