-- ==== Sys2Proof/Machine/HostProgram.lean ====
section
/-!
DEFINITION. The host program notation (30_encoding.md R64 to R66): a host program is its list of bus transactions, and
each pseudo-instruction is the list it expands to.
-/

namespace Sys2Proof.Machine

/-- The 64-bit quantities a host names by one name, each held in two words `X_LO` and `X_HI` (R18, R42). The host may
write both words of any of them; the writes to `ERR_A`, `ERR_B` and `POS` are ignored, since they are read-only (R40). -/
inductive Reg64 where
  | payloadLen
  | sampleCount
  | bitCount
  | errA
  | errB
  | pos
  deriving DecidableEq, Repr

/-- The index of a 64-bit register's `_LO` word (R18); its `_HI` word is at the next index (R42). -/
def loIndex : Reg64 → Nat
  | .payloadLen => 4
  | .sampleCount => 6
  | .bitCount => 8
  | .errA => 10
  | .errB => 12
  | .pos => 15

/-- The pseudo-instructions of R65. -/
inductive Pseudo where
  /-- `SET64 X, v`. -/
  | set64 (x : Reg64) (v : DWord)
  /-- `RUN <command>`. -/
  | run (i : Instr)
  /-- `WAIT_DONE`. -/
  | waitDone
  /-- `ACK`. -/
  | ack
  /-- `SRESET`. -/
  | sreset
  deriving DecidableEq, Repr

/-- The expansion of a pseudo-instruction (R65). -/
def expand {sw : Nat} : Pseudo → List (Move sw)
  | .set64 x v => [.write (loIndex x) (loWord v), .write (loIndex x + 1) (hiWord v)]
  | .run i => [.write cmdIndex (encode i)]
  | .waitDone => [.waitDone]
  | .ack => [.write 3 0x00000102#32]
  | .sreset => [.write 1 0x00000001#32]

/-- The bus transactions of a list of pseudo-instructions, in order (R66). -/
def expandAll {sw : Nat} (ps : List Pseudo) : List (Move sw) := ps.flatMap expand

end Sys2Proof.Machine
end

