-- ==== Sys2Proof/Safety.lean ====
section
/-!
DEFINITION. What the claims speak of: the invariant of the block (which rules out states no run reaches), turns of the
engine in a row, samples cut down to a smaller width, and the host's moves that cannot disturb a beat.
-/

namespace Sys2Proof.Machine

/-! ### The invariant -/

/-- The flags agree: `BUSY` and `DONE` are never both 1 (R24), `STATUS.OP` is `w.op` (R33), a running command is one of
the four (R68) with no error recorded (R138), and `POS < w.total` while it runs (R72). -/
abbrev Block.flagsInv (b : Block) : Prop :=
  (b.busy = true → b.done = false) ∧
  b.op = b.w.op ∧
  (b.busy = true → (opcodeInstr b.w.op).isSome = true) ∧
  (b.busy = true → b.errCode = .noError) ∧
  (b.busy = true → b.pos < b.w.total)

/-- The working fields of a running command are those its start part wrote (R79, R87, R91, R98), with `w.total` raised by
the length check of EXTRACT (R100). -/
abbrev Block.runInv (b : Block) : Prop :=
  b.busy = true →
    (b.w.op = opcodeOf .frame → b.w.total = framedCount b.w.len) ∧
    (b.w.op = opcodeOf .embed → b.w.nbits = framedCount b.w.len ∧ b.w.nbits ≤ b.w.n ∧ b.w.total = b.w.n) ∧
    (b.w.op = opcodeOf .embedRaw → b.w.nbits ≤ b.w.n ∧ b.w.total = b.w.n) ∧
    (b.w.op = opcodeOf .extract → b.pos < 32#64 →
      b.w.total = 32#64 ∧ 32#64 ≤ b.w.n ∧ b.decodedLen = 0#32) ∧
    (b.w.op = opcodeOf .extract → 32#64 ≤ b.pos →
      b.w.total = framedCount b.w.lenSr ∧ b.w.total ≤ b.w.n ∧ b.decodedLen = b.w.lenSr)

/-- What each value of `ERR_CODE` says of the diagnostic registers, `OP`, `POS` and `DECODED_LEN` (R105 to R110, R114);
an idle block with no error has performed `w.total` beats (R71); only EXTRACT decodes a length (R30). -/
abbrev Block.errorInv (b : Block) : Prop :=
  (b.errCode = .noError → b.errA = 0#64 ∧ b.errB = 0#64) ∧
  (b.busy = false → b.errCode = .noError → b.pos = b.w.total) ∧
  (b.errCode = .capacityExceeded →
    (b.op = opcodeOf .embed ∨ b.op = opcodeOf .embedRaw) ∧ b.errB < b.errA ∧ b.pos = 0#64) ∧
  (b.errCode = .payloadTooLarge →
    (b.op = opcodeOf .frame ∨ b.op = opcodeOf .embed) ∧ b.errB = maxLen ∧ maxLen < b.errA ∧ b.pos = 0#64) ∧
  (b.errCode = .truncatedWatermark →
    b.op = opcodeOf .extract ∧ b.errA = framedCount b.decodedLen ∧ b.errB < b.errA ∧ b.pos = 32#64) ∧
  (b.errCode = .insufficientSamples →
    b.op = opcodeOf .extract ∧ b.errA = 32#64 ∧ b.errB < 32#64 ∧ b.pos = 0#64) ∧
  (b.errCode = .illegalCommand →
    b.errA = (loWord b.errA).setWidth 64 ∧ legalWord (loWord b.errA) = false ∧ b.op = opcodeField (loWord b.errA) ∧
      b.errB = 0#64 ∧ b.pos = 0#64) ∧
  (b.decodedLen ≠ 0#32 → b.op = opcodeOf .extract)

/-- The invariant of the machine: the block's, and a block whose reset input is asserted is in its reset state (R125). -/
abbrev State.inv {sw : Nat} (s : State sw) : Prop :=
  s.block.flagsInv ∧ s.block.runInv ∧ s.block.errorInv ∧ (s.rst = true → s.block = Block.reset)

/-! ### Runs of the engine -/

/-- `k` turns of the engine in a row, with no move of the host between them (R72). -/
def engineBeats {sw : Nat} : Nat → State sw → Host.Outcome (State sw) Fault Refusal
  | 0, s => .next s
  | k + 1, s =>
    match engineTurn s with
    | .next t => engineBeats k t
    | .fault f => .fault f
    | .refused r => .refused r

/-- The block is released from reset and idle, so that a command word is accepted (R24, R67, R125). -/
abbrev State.ready {sw : Nat} (s : State sw) : Prop := s.rst = false ∧ s.block.busy = false

/-- The engine runs the command `i` (R24, R33). -/
abbrev State.running {sw : Nat} (s : State sw) (i : Instr) : Prop :=
  s.rst = false ∧ s.block.busy = true ∧ s.block.w.op = opcodeOf i

/-- The outcome of a command that succeeded (R71): idle, done, no error, no diagnostics. -/
abbrev Block.succeeded (b : Block) : Prop :=
  b.busy = false ∧ b.done = true ∧ b.errCode = .noError ∧ b.errA = 0#64 ∧ b.errB = 0#64

/-- The outcome of a command that failed (R71, R114): idle, done, the error code and the two diagnostic quantities. -/
abbrev Block.failed (b : Block) (code : ErrCode) (errA errB : Nat) : Prop :=
  b.busy = false ∧ b.done = true ∧ b.errCode = code ∧ b.errA.toNat = errA ∧ b.errB.toNat = errB

/-! ### Sample widths -/

/-- The same queues with every sample cut down to its low `sw'` bits. -/
def Streams.narrow {sw : Nat} (sw' : Nat) (q : Streams sw) : Streams sw' :=
  { sIn := q.sIn.map (·.setWidth sw'), sOut := q.sOut.map (·.setWidth sw'), pIn := q.pIn, pOut := q.pOut,
    bIn := q.bIn, bOut := q.bOut }

/-! ### Interleaving -/

/-- The host's moves that touch neither the running command nor what its next beat takes: offers, collections of an item
that is there, and writes to the operand registers (R46, R76). -/
def State.quietMove {sw : Nat} (s : State sw) : Move sw → Bool
  | .offerS _ => true
  | .offerP _ => true
  | .offerB _ => true
  | .collectS => !s.streams.sOut.isEmpty
  | .collectP => !s.streams.pOut.isEmpty
  | .collectB => !s.streams.bOut.isEmpty
  | .write i _ => decide (4 ≤ i ∧ i ≤ 9)
  | .read _ => false
  | .engine => false
  | .wait => false
  | .waitDone => false
  | .assertReset => false
  | .releaseReset => false

end Sys2Proof.Machine
end

