-- ==== Sys2Proof/Certificates/Slice0/Obligations.lean ====
section
/-!
DEFINITION. The statements for the provers, from the numbered rules of the spec. In every one of them a state is any
state, reachable or not, unless its premise says otherwise. A move of the host (a register access, an offer, a collection)
is taken when it is the first of the state's agenda, which is the model's own way to hold the interleaving of R50 (log
entry 2); a command is `exec`, its word's write to `CMD` (log entry 1).
-/

open Sys2Proof Sys2Proof.Machine

/-! ## Encoding -/

/-- R58: the four command words and some illegal ones, written out from the opcode map, decode to what they stand for. -/
def Obligations.CommandWordsDecode : Prop :=
  decode 0x00000001#32 = .ok .frame ∧ decode 0x00000002#32 = .ok .embed ∧
  decode 0x00000003#32 = .ok .embedRaw ∧ decode 0x00000004#32 = .ok .extract ∧
  decode 0x00000000#32 = .error (.noSuchOpcode 0x0#4) ∧ decode 0x00000005#32 = .error (.noSuchOpcode 0x5#4) ∧
  decode 0x0000000F#32 = .error (.noSuchOpcode 0xF#4) ∧ decode 0x00000012#32 = .error .reservedBitsSet ∧
  decode 0xFFFFFFF4#32 = .error .reservedBitsSet

/-- R57, R58: decoding the word of a command gives the command back, through the opcode table's numbering too. -/
def Obligations.DecodeOfEncode : Prop :=
  ∀ i : Instr, decode (encode i) = .ok i ∧ decodeTableWord 32 (encode i).toNat = some i

/-- R57 to R59: over all 2^32 words, a word decodes to a command exactly when it is that command's word. -/
def Obligations.DecodeExactlyEncodings : Prop :=
  ∀ (d : Word) (i : Instr), decode d = .ok i ↔ d = encode i

/-- R59: which words are legal, and what every other word does when it is accepted. -/
def Obligations.LegalWordsAndTheRest : Prop :=
  (∀ d : Word, (∃ i, decode d = .ok i) ↔
    rsvdField d = 0#28 ∧ (opcodeField d = 0x1#4 ∨ opcodeField d = 0x2#4 ∨ opcodeField d = 0x3#4 ∨ opcodeField d = 0x4#4)) ∧
  (∀ (d : Word) (s : State), s.ready → (∀ i, decode d ≠ .ok i) →
    ∃ t, cmdWrite d s = .next t ∧ t.streams = s.streams ∧ t.block.failed .illegalCommand d.toNat 0)

/-! ## Acceptance of a command -/

/-- R22, R67: when the host's next move is the write of a command's word to `CMD`, the step is `exec` of that command in
the state whose agenda has moved past the write, and `withFetchWord` sets up exactly such a move. -/
def Obligations.StepRunsDecodedCommand : Prop :=
  (∀ (s : State) (d : Word) (rest : List Move) (i : Instr),
    s.agenda = .write 2 d :: rest → decode d = .ok i → step s = exec i (s.withAgenda rest)) ∧
  (∀ (s : State) (nbits w : Nat) (i : Instr),
    decodeTableWord nbits w = some i → step (s.withFetchWord nbits w) = exec i (s.withRst false))

/-- R67, R68, R79: FRAME with a payload length below 2^32 starts: the whole next state. -/
def Obligations.FrameStarts : Prop :=
  ∀ s : State, s.ready → s.block.payloadLen.toNat < 2 ^ 32 →
    exec .frame s = .next (s.withBlock { s.block with
      busy := true, done := false, errCode := .noError, cmdIgnored := false, op := 0x1#4,
      errA := 0#64, errB := 0#64, decodedLen := 0#32, pos := 0#64,
      w := { op := 0x1#4, len := s.block.payloadLen.setWidth 32, n := 0#64, nbits := 0#64,
             total := BitVec.ofNat 64 (32 + 8 * s.block.payloadLen.toNat), lenSr := 0#32, byteSr := 0#8 } })

/-- R67, R68, R87: EMBED with a payload length below 2^32 and enough samples starts: the whole next state. -/
def Obligations.EmbedStarts : Prop :=
  ∀ s : State, s.ready → s.block.payloadLen.toNat < 2 ^ 32 →
    32 + 8 * s.block.payloadLen.toNat ≤ s.block.sampleCount.toNat →
    exec .embed s = .next (s.withBlock { s.block with
      busy := true, done := false, errCode := .noError, cmdIgnored := false, op := 0x2#4,
      errA := 0#64, errB := 0#64, decodedLen := 0#32, pos := 0#64,
      w := { op := 0x2#4, len := s.block.payloadLen.setWidth 32, n := s.block.sampleCount,
             nbits := BitVec.ofNat 64 (32 + 8 * s.block.payloadLen.toNat), total := s.block.sampleCount,
             lenSr := 0#32, byteSr := 0#8 } })

/-- R67, R68, R91: EMBED_RAW with at most as many bits as samples starts, or with no sample completes at acceptance: the
whole next state. -/
def Obligations.EmbedRawStartsOrCompletes : Prop :=
  ∀ s : State, s.ready → s.block.bitCount.toNat ≤ s.block.sampleCount.toNat →
    exec .embedRaw s = .next (s.withBlock { s.block with
      busy := decide (s.block.sampleCount.toNat ≠ 0), done := decide (s.block.sampleCount.toNat = 0),
      errCode := .noError, cmdIgnored := false, op := 0x3#4,
      errA := 0#64, errB := 0#64, decodedLen := 0#32, pos := 0#64,
      w := { op := 0x3#4, len := 0#32, n := s.block.sampleCount, nbits := s.block.bitCount,
             total := s.block.sampleCount, lenSr := 0#32, byteSr := 0#8 } })

/-- R67, R68, R98: EXTRACT with at least 32 samples starts: the whole next state. -/
def Obligations.ExtractStarts : Prop :=
  ∀ s : State, s.ready → 32 ≤ s.block.sampleCount.toNat →
    exec .extract s = .next (s.withBlock { s.block with
      busy := true, done := false, errCode := .noError, cmdIgnored := false, op := 0x4#4,
      errA := 0#64, errB := 0#64, decodedLen := 0#32, pos := 0#64,
      w := { op := 0x4#4, len := 0#32, n := s.block.sampleCount, nbits := 0#64, total := 32#64,
             lenSr := 0#32, byteSr := 0#8 } })

/-- R107, R112: FRAME and EMBED with a payload length of 2^32 or more fail at acceptance, whatever the other operands. -/
def Obligations.PayloadTooLargeAtAcceptance : Prop :=
  ∀ (s : State) (i : Instr), s.ready → i = .frame ∨ i = .embed → 2 ^ 32 ≤ s.block.payloadLen.toNat →
    ∃ t, exec i s = .next t ∧ t.streams = s.streams ∧ t.block.op = opcodeOf i ∧ t.block.pos = 0#64 ∧
      t.block.decodedLen = 0#32 ∧ t.block.failed .payloadTooLarge s.block.payloadLen.toNat 0xFFFFFFFF

/-- R106: EMBED with a legal payload length and too few samples, and EMBED_RAW with more bits than samples, fail at
acceptance with both sizes. -/
def Obligations.CapacityExceededAtAcceptance : Prop :=
  (∀ s : State, s.ready → s.block.payloadLen.toNat < 2 ^ 32 →
    s.block.sampleCount.toNat < 32 + 8 * s.block.payloadLen.toNat →
    ∃ t, exec .embed s = .next t ∧ t.streams = s.streams ∧ t.block.op = 0x2#4 ∧ t.block.pos = 0#64 ∧
      t.block.decodedLen = 0#32 ∧
      t.block.failed .capacityExceeded (32 + 8 * s.block.payloadLen.toNat) s.block.sampleCount.toNat) ∧
  (∀ s : State, s.ready → s.block.sampleCount.toNat < s.block.bitCount.toNat →
    ∃ t, exec .embedRaw s = .next t ∧ t.streams = s.streams ∧ t.block.op = 0x3#4 ∧ t.block.pos = 0#64 ∧
      t.block.decodedLen = 0#32 ∧
      t.block.failed .capacityExceeded s.block.bitCount.toNat s.block.sampleCount.toNat)

/-- R109: EXTRACT with fewer than 32 samples fails at acceptance. -/
def Obligations.InsufficientSamplesAtAcceptance : Prop :=
  ∀ s : State, s.ready → s.block.sampleCount.toNat < 32 →
    ∃ t, exec .extract s = .next t ∧ t.streams = s.streams ∧ t.block.op = 0x4#4 ∧ t.block.pos = 0#64 ∧
      t.block.decodedLen = 0#32 ∧ t.block.failed .insufficientSamples 32 s.block.sampleCount.toNat

/-- R67, R69, R110: an illegal word accepted by an idle block: the whole next state, as one step. -/
def Obligations.IllegalWordAtAcceptance : Prop :=
  ∀ (s : State) (d : Word) (rest : List Move) (e : DecodeError), s.ready → s.agenda = .write 2 d :: rest →
    decode d = .error e →
    step s = .next ((s.withAgenda rest).withBlock { s.block with
      busy := false, done := true, errCode := .illegalCommand, cmdIgnored := false, op := d.extractLsb' 0 4,
      errA := BitVec.ofNat 64 d.toNat, errB := 0#64, decodedLen := 0#32, pos := 0#64,
      w := { Work.reset with op := d.extractLsb' 0 4 } })

/-- R70: any word written to `CMD` while the engine is busy is ignored, except that `CMD_IGNORED` is set. -/
def Obligations.CommandWriteWhileBusyIgnored : Prop :=
  ∀ (s : State) (d : Word) (rest : List Move), s.rst = false → s.block.busy = true → s.agenda = .write 2 d :: rest →
    step s = .next ((s.withAgenda rest).withBlock { s.block with cmdIgnored := true })

/-- R34, R67, R68, R71: the frame of all four commands: a command word written to `CMD` answers a next state, which keeps the
queues, the operand registers, `IE`, the reset level, the agenda and what the host has got back. -/
def Obligations.CommandWordFrame : Prop :=
  ∀ (i : Instr) (s : State), ∃ t, exec i s = .next t ∧ t.streams = s.streams ∧ t.rst = s.rst ∧ t.agenda = s.agenda ∧
    t.seen = s.seen ∧ t.block.ie = s.block.ie ∧ t.block.payloadLen = s.block.payloadLen ∧
    t.block.sampleCount = s.block.sampleCount ∧ t.block.bitCount = s.block.bitCount ∧
    (s.rst = true → t = s)

/-- R33, R67, R82: acceptance leaves nothing of earlier commands: the block after it depends on `IE` and the operand
registers alone, whatever the working fields, the result registers and the flags held. -/
def Obligations.AcceptanceForgetsEarlierCommands : Prop :=
  ∀ (i : Instr) (s s' : State), s.ready → s'.ready → s'.block.ie = s.block.ie →
    s'.block.payloadLen = s.block.payloadLen → s'.block.sampleCount = s.block.sampleCount →
    s'.block.bitCount = s.block.bitCount →
    ∃ b, exec i s = .next (s.withBlock b) ∧ exec i s' = .next (s'.withBlock b)

/-- R115: a command that fails at acceptance fails again when it is written again, with the same record. -/
def Obligations.RejectedCommandFailsAgain : Prop :=
  ∀ (i : Instr) (s t : State), s.ready → exec i s = .next t → t.block.done = true → exec i t = .next t

/-! ## Beats -/

/-- R72: the end of a beat: `POS` advances by 1, and the command completes when `POS` has reached `w.total`. -/
def Obligations.BeatEnd : Prop :=
  ∀ b : Block,
    (b.pos + 1#64 = b.w.total →
      endBeat b = { b with pos := b.pos + 1#64, busy := false, done := true, errCode := .noError }) ∧
    (b.pos + 1#64 ≠ b.w.total → endBeat b = { b with pos := b.pos + 1#64 })

/-- R80: the FRAME beat at every position: a length bit, the first bit of a new byte, a later bit of the byte held, or a
wait for a missing byte. -/
def Obligations.FrameBeat : Prop :=
  ∀ s : State, s.running .frame →
    (s.block.pos.toNat < 32 →
      engineTurn s = .next ((s.withBlock (endBeat s.block)).withStreams { s.streams with
        bOut := s.streams.bOut ++ [s.block.w.len.getLsbD s.block.pos.toNat] })) ∧
    (32 ≤ s.block.pos.toNat → (s.block.pos.toNat - 32) % 8 = 0 →
      (s.streams.pIn = [] → engineTurn s = .next s) ∧
      (∀ x rest, s.streams.pIn = x :: rest →
        engineTurn s = .next ((s.withBlock (endBeat { s.block with w := { s.block.w with byteSr := x } })).withStreams
          { s.streams with pIn := rest, bOut := s.streams.bOut ++ [x.getLsbD 0] }))) ∧
    (32 ≤ s.block.pos.toNat → (s.block.pos.toNat - 32) % 8 ≠ 0 →
      engineTurn s = .next ((s.withBlock (endBeat s.block)).withStreams { s.streams with
        bOut := s.streams.bOut ++ [s.block.w.byteSr.getLsbD ((s.block.pos.toNat - 32) % 8)] }))

/-- R88: the EMBED beat at every position: a wait for a sample, a pass-through, a length bit, the first bit of a new byte
(or a wait for it with no sample taken), or a later bit of the byte held. -/
def Obligations.EmbedBeat : Prop :=
  ∀ s : State, s.running .embed →
    (s.streams.sIn = [] → engineTurn s = .next s) ∧
    (∀ x rest, s.streams.sIn = x :: rest →
      (s.block.w.nbits.toNat ≤ s.block.pos.toNat →
        engineTurn s = .next ((s.withBlock (endBeat s.block)).withStreams
          { s.streams with sIn := rest, sOut := s.streams.sOut ++ [x] })) ∧
      (s.block.pos.toNat < s.block.w.nbits.toNat → s.block.pos.toNat < 32 →
        engineTurn s = .next ((s.withBlock (endBeat s.block)).withStreams
          { s.streams with
            sIn := rest, sOut := s.streams.sOut ++ [setLsb x (s.block.w.len.getLsbD s.block.pos.toNat)] })) ∧
      (s.block.pos.toNat < s.block.w.nbits.toNat → 32 ≤ s.block.pos.toNat → (s.block.pos.toNat - 32) % 8 = 0 →
        (s.streams.pIn = [] → engineTurn s = .next s) ∧
        (∀ y pRest, s.streams.pIn = y :: pRest →
          engineTurn s = .next ((s.withBlock (endBeat { s.block with w := { s.block.w with byteSr := y } })).withStreams
            { s.streams with
              sIn := rest, pIn := pRest, sOut := s.streams.sOut ++ [setLsb x (y.getLsbD 0)] }))) ∧
      (s.block.pos.toNat < s.block.w.nbits.toNat → 32 ≤ s.block.pos.toNat → (s.block.pos.toNat - 32) % 8 ≠ 0 →
        engineTurn s = .next ((s.withBlock (endBeat s.block)).withStreams
          { s.streams with
            sIn := rest,
            sOut := s.streams.sOut ++ [setLsb x (s.block.w.byteSr.getLsbD ((s.block.pos.toNat - 32) % 8))] })))

/-- R92: the EMBED_RAW beat: a wait for a sample, a pass-through, a wait for a bit with no sample taken, or a bit put into
the sample. -/
def Obligations.EmbedRawBeat : Prop :=
  ∀ s : State, s.running .embedRaw →
    (s.streams.sIn = [] → engineTurn s = .next s) ∧
    (∀ x rest, s.streams.sIn = x :: rest →
      (s.block.w.nbits.toNat ≤ s.block.pos.toNat →
        engineTurn s = .next ((s.withBlock (endBeat s.block)).withStreams
          { s.streams with sIn := rest, sOut := s.streams.sOut ++ [x] })) ∧
      (s.block.pos.toNat < s.block.w.nbits.toNat →
        (s.streams.bIn = [] → engineTurn s = .next s) ∧
        (∀ b bRest, s.streams.bIn = b :: bRest →
          engineTurn s = .next ((s.withBlock (endBeat s.block)).withStreams
            { s.streams with sIn := rest, bIn := bRest, sOut := s.streams.sOut ++ [setLsb x b] }))))

/-- R99, R100: the EXTRACT beat at `POS = k < 32`: it takes one sample and gives nothing; bit `k` of `w.len_sr` becomes the
sample's bit 0 and every other bit is kept; and the beat with `k = 31` ends with the length check, which fails with
TruncatedWatermark, completes for length 0, or raises `w.total`. `L` is the whole decoded length. -/
def Obligations.ExtractLengthBeat : Prop :=
  ∀ s : State, s.running .extract → s.block.pos.toNat < 32 →
    (s.streams.sIn = [] → engineTurn s = .next s) ∧
    (∀ x rest, s.streams.sIn = x :: rest → ∃ L : Word,
      (∀ j, j < 32 → L.getLsbD j = if j = s.block.pos.toNat then x.getLsbD 0 else s.block.w.lenSr.getLsbD j) ∧
      engineTurn s = .next ((s.withStreams { s.streams with sIn := rest }).withBlock
        (if s.block.pos.toNat < 31 then
          { s.block with pos := s.block.pos + 1#64, w := { s.block.w with lenSr := L } }
        else if s.block.w.n.toNat < 32 + 8 * L.toNat then
          { s.block with
            pos := 32#64, w := { s.block.w with lenSr := L }, decodedLen := L, busy := false, done := true,
            errCode := .truncatedWatermark, errA := BitVec.ofNat 64 (32 + 8 * L.toNat), errB := s.block.w.n }
        else if L.toNat = 0 then
          { s.block with
            pos := 32#64, w := { s.block.w with lenSr := L }, decodedLen := L, busy := false, done := true,
            errCode := .noError }
        else
          { s.block with
            pos := 32#64, decodedLen := L,
            w := { s.block.w with lenSr := L, total := BitVec.ofNat 64 (32 + 8 * L.toNat) } })))

/-- R99: the EXTRACT beat at `POS = k >= 32`: it takes one sample; bit `(k - 32) mod 8` of `w.byte_sr` becomes the sample's
bit 0 and every other bit is kept; and only at bit 7 the whole byte is given. -/
def Obligations.ExtractPayloadBeat : Prop :=
  ∀ s : State, s.running .extract → 32 ≤ s.block.pos.toNat →
    (s.streams.sIn = [] → engineTurn s = .next s) ∧
    (∀ x rest, s.streams.sIn = x :: rest → ∃ y : Byte,
      (∀ j, j < 8 → y.getLsbD j =
        if j = (s.block.pos.toNat - 32) % 8 then x.getLsbD 0 else s.block.w.byteSr.getLsbD j) ∧
      engineTurn s = .next ((s.withBlock (endBeat { s.block with w := { s.block.w with byteSr := y } })).withStreams
        { s.streams with
          sIn := rest,
          pOut := if (s.block.pos.toNat - 32) % 8 = 7 then s.streams.pOut ++ [y] else s.streams.pOut }))

/-- R45, R80, R88, R92, R99: a running engine has no beat to take exactly while an item its beat takes is missing, and then
its turn changes nothing. -/
def Obligations.BeatWaitsExactlyForMissingInput : Prop :=
  ∀ (s : State) (i : Instr), s.running i →
    (beatEnabled s = false → engineTurn s = .next s) ∧
    (beatEnabled s = false ↔
      match i with
      | .frame => 32 ≤ s.block.pos.toNat ∧ (s.block.pos.toNat - 32) % 8 = 0 ∧ s.streams.pIn = []
      | .embed => s.streams.sIn = [] ∨
          (s.block.pos.toNat < s.block.w.nbits.toNat ∧ 32 ≤ s.block.pos.toNat ∧ (s.block.pos.toNat - 32) % 8 = 0 ∧
            s.streams.pIn = [])
      | .embedRaw => s.streams.sIn = [] ∨ (s.block.pos.toNat < s.block.w.nbits.toNat ∧ s.streams.bIn = [])
      | .extract => s.streams.sIn = [])

/-- R14, R46, R56: in its turn the engine takes at most the head of each input queue and puts at most one item at the end of
each output queue; it never puts an item into an input queue or takes one from an output queue. -/
def Obligations.BeatMovesAtMostOneItemPerQueue : Prop :=
  ∀ s t : State, engineTurn s = .next t →
    (∃ xs, xs.length ≤ 1 ∧ s.streams.sIn = xs ++ t.streams.sIn) ∧
    (∃ xs, xs.length ≤ 1 ∧ s.streams.pIn = xs ++ t.streams.pIn) ∧
    (∃ xs, xs.length ≤ 1 ∧ s.streams.bIn = xs ++ t.streams.bIn) ∧
    (∃ ys, ys.length ≤ 1 ∧ t.streams.sOut = s.streams.sOut ++ ys) ∧
    (∃ ys, ys.length ≤ 1 ∧ t.streams.pOut = s.streams.pOut ++ ys) ∧
    (∃ ys, ys.length ≤ 1 ∧ t.streams.bOut = s.streams.bOut ++ ys)

/-- R34, R36: the frame of a beat: only the streams its command uses can change, and no operand register, no `IE`, no
`CMD_IGNORED`, no `OP`, no latched operand and nothing of the host changes; `DECODED_LEN` and `w.len_sr` change only in
EXTRACT. -/
def Obligations.BeatFrame : Prop :=
  ∀ (s t : State) (i : Instr), s.running i → engineTurn s = .next t →
    (i ≠ .embed ∧ i ≠ .embedRaw ∧ i ≠ .extract → t.streams.sIn = s.streams.sIn) ∧
    (i ≠ .embed ∧ i ≠ .embedRaw → t.streams.sOut = s.streams.sOut) ∧
    (i ≠ .frame ∧ i ≠ .embed → t.streams.pIn = s.streams.pIn) ∧
    (i ≠ .extract → t.streams.pOut = s.streams.pOut) ∧
    (i ≠ .embedRaw → t.streams.bIn = s.streams.bIn) ∧
    (i ≠ .frame → t.streams.bOut = s.streams.bOut) ∧
    (i ≠ .extract → t.block.decodedLen = s.block.decodedLen ∧ t.block.w.lenSr = s.block.w.lenSr ∧
      t.block.w.total = s.block.w.total ∧ t.block.errA = s.block.errA ∧ t.block.errB = s.block.errB) ∧
    t.block.ie = s.block.ie ∧ t.block.cmdIgnored = s.block.cmdIgnored ∧ t.block.op = s.block.op ∧
    t.block.payloadLen = s.block.payloadLen ∧ t.block.sampleCount = s.block.sampleCount ∧
    t.block.bitCount = s.block.bitCount ∧ t.block.w.op = s.block.w.op ∧ t.block.w.len = s.block.w.len ∧
    t.block.w.n = s.block.w.n ∧ t.block.w.nbits = s.block.w.nbits ∧
    t.rst = s.rst ∧ t.agenda = s.agenda ∧ t.seen = s.seen

/-- R106 to R111: no step that records an error gives an output item, and only TruncatedWatermark has taken an item in that
step, the EXTRACT beat at `POS = 31`: no EXTRACT beat before it gives anything (ExtractLengthBeat). -/
def Obligations.NoOutputInTheStepOfAnError : Prop :=
  ∀ s t : State, s.inv → step s = .next t → t.block.errCode ≠ .noError → t.block.errCode ≠ s.block.errCode →
    s.streams.sOut = t.streams.sOut ∧ s.streams.pOut = t.streams.pOut ∧ s.streams.bOut = t.streams.bOut ∧
    (t.block.errCode ≠ .truncatedWatermark → t.streams = s.streams) ∧
    (t.block.errCode = .truncatedWatermark → s.running .extract ∧ s.block.pos = 31#64 ∧ t.block.pos = 32#64)

/-! ## Register reads and writes -/

/-- R39: a read of an index below 64 returns the word of the register map and changes nothing else. -/
def Obligations.ReadReturnsRegisterMap : Prop :=
  ∀ (s : State) (i : Nat) (rest : List Move), s.rst = false → i < 64 → s.agenda = .read i :: rest →
    ∃ d : Word, step s = .next ((s.withAgenda rest).withSeen (.reg i d)) ∧
      (i = 0 → d = 0x00000110#32) ∧
      (i = 1 → d = if s.block.ie then 0x00000002#32 else 0x00000000#32) ∧
      (i = 2 → d = 0#32) ∧
      (i = 3 → d = statusWord s.block) ∧
      (i = 4 → d.toNat = s.block.payloadLen.toNat % 2 ^ 32) ∧ (i = 5 → d.toNat = s.block.payloadLen.toNat / 2 ^ 32) ∧
      (i = 6 → d.toNat = s.block.sampleCount.toNat % 2 ^ 32) ∧ (i = 7 → d.toNat = s.block.sampleCount.toNat / 2 ^ 32) ∧
      (i = 8 → d.toNat = s.block.bitCount.toNat % 2 ^ 32) ∧ (i = 9 → d.toNat = s.block.bitCount.toNat / 2 ^ 32) ∧
      (i = 10 → d.toNat = s.block.errA.toNat % 2 ^ 32) ∧ (i = 11 → d.toNat = s.block.errA.toNat / 2 ^ 32) ∧
      (i = 12 → d.toNat = s.block.errB.toNat % 2 ^ 32) ∧ (i = 13 → d.toNat = s.block.errB.toNat / 2 ^ 32) ∧
      (i = 14 → d = s.block.decodedLen) ∧
      (i = 15 → d.toNat = s.block.pos.toNat % 2 ^ 32) ∧ (i = 16 → d.toNat = s.block.pos.toNat / 2 ^ 32) ∧
      (17 ≤ i → d = 0#32)

/-- R23, R105: the layout of `STATUS`, every bit of it, with the number of each error code. -/
def Obligations.StatusLayout : Prop :=
  ∀ b : Block,
    (statusWord b).getLsbD 0 = b.busy ∧ (statusWord b).getLsbD 1 = b.done ∧
    ((statusWord b).getLsbD 2 = true ↔ b.errCode ≠ .noError) ∧ (statusWord b).getLsbD 3 = false ∧
    (statusWord b).extractLsb' 4 4 =
      (match b.errCode with
       | .noError => 0#4
       | .capacityExceeded => 1#4
       | .payloadTooLarge => 2#4
       | .truncatedWatermark => 3#4
       | .insufficientSamples => 4#4
       | .illegalCommand => 5#4) ∧
    (statusWord b).getLsbD 8 = b.cmdIgnored ∧
    (statusWord b).extractLsb' 9 3 = 0#3 ∧ (statusWord b).extractLsb' 12 4 = b.op ∧
    (statusWord b).extractLsb' 16 16 = 0#16

/-- R19, R20: the `INFO` word for every sample width it is valid for. -/
def Obligations.InfoWordForEveryWidth : Prop :=
  ∀ (sw : Nat) (b : Block), 1 ≤ sw → sw ≤ 255 →
    readWord sw b 0 = 0x00000100#32 ||| BitVec.ofNat 32 sw ∧ ((readWord sw b 0).extractLsb' 0 8).toNat = sw ∧
    (readWord sw b 0).extractLsb' 8 8 = 1#8 ∧ (readWord sw b 0).extractLsb' 16 16 = 0#16

/-- R25 to R27, R40, R42: a write to one half of an operand register is read back at that index, every other index reads as
before, and the working fields and the queues are unchanged, whether or not a command runs. -/
def Obligations.OperandWriteReadsBack : Prop :=
  ∀ (s : State) (i : Nat) (d : Word), s.rst = false → 4 ≤ i → i ≤ 9 →
    ∃ t, regWrite i d s = .next t ∧ readWord Config.sampleW t.block i = d ∧
      (∀ j, j ≠ i → readWord Config.sampleW t.block j = readWord Config.sampleW s.block j) ∧
      t.block.w = s.block.w ∧ t.streams = s.streams ∧ t.rst = s.rst ∧ t.agenda = s.agenda ∧ t.seen = s.seen

/-- R32, R40: a write to `INFO`, to a read-only register or to a reserved index is ignored. -/
def Obligations.WritesToReadOnlyAndReservedIgnored : Prop :=
  ∀ (s : State) (i : Nat) (d : Word) (rest : List Move), i = 0 ∨ (10 ≤ i ∧ i ≤ 63) → s.agenda = .write i d :: rest →
    step s = .next (s.withAgenda rest)

/-- R73: the write to `STATUS`. -/
def Obligations.StatusWriteAcknowledges : Prop :=
  ∀ (s : State) (d : Word) (rest : List Move), s.rst = false → s.agenda = .write 3 d :: rest →
    step s = .next ((s.withAgenda rest).withBlock { s.block with
      done := s.block.done && !d.getLsbD 1, cmdIgnored := s.block.cmdIgnored && !d.getLsbD 8 })

/-- R74: the write to `CTRL`; bit 0 reads 0 at all times and bit 1 reads `IE`. -/
def Obligations.ControlWrite : Prop :=
  (∀ (s : State) (d : Word) (rest : List Move), s.rst = false → s.agenda = .write 1 d :: rest →
    step s = .next ((s.withAgenda rest).withBlock
      (if d.getLsbD 0 then Block.reset else { s.block with ie := d.getLsbD 1 }))) ∧
  (∀ b : Block, (readWord Config.sampleW b 1).getLsbD 0 = false ∧ (readWord Config.sampleW b 1).getLsbD 1 = b.ie)

/-- R41: a register access whose index is not 0 to 63 is refused, and nothing else is ever refused. -/
def Obligations.OnlyIndexOutOfRangeRefused : Prop :=
  (∀ (s : State) (i : Nat) (rest : List Move), 64 ≤ i →
    (s.agenda = .read i :: rest ∨ ∃ d, s.agenda = .write i d :: rest) → step s = .refused (.indexOutOfRange i)) ∧
  (∀ (s : State) (r : Refusal), step s = .refused r →
    ∃ i rest, 64 ≤ i ∧ r = .indexOutOfRange i ∧ (s.agenda = .read i :: rest ∨ ∃ d, s.agenda = .write i d :: rest))

/-! ## Reset -/

/-- R126: the values reset leaves, the words the host then reads, `INFO` constant, and the queues unchanged by reset. -/
def Obligations.ResetValues : Prop :=
  State.reset.block.ie = false ∧ State.reset.block.busy = false ∧ State.reset.block.done = false ∧
  State.reset.block.errCode = .noError ∧ State.reset.block.cmdIgnored = false ∧ State.reset.block.op = 0#4 ∧
  State.reset.block.payloadLen = 0#64 ∧ State.reset.block.sampleCount = 0#64 ∧ State.reset.block.bitCount = 0#64 ∧
  State.reset.block.errA = 0#64 ∧ State.reset.block.errB = 0#64 ∧ State.reset.block.decodedLen = 0#32 ∧
  State.reset.block.pos = 0#64 ∧ State.reset.block.w.op = 0#4 ∧ State.reset.block.w.len = 0#32 ∧
  State.reset.block.w.n = 0#64 ∧ State.reset.block.w.nbits = 0#64 ∧ State.reset.block.w.total = 0#64 ∧
  State.reset.block.w.lenSr = 0#32 ∧ State.reset.block.w.byteSr = 0#8 ∧
  irq State.reset.block = false ∧ readWord Config.sampleW State.reset.block 0 = 0x00000110#32 ∧
  (∀ i, i ≤ 16 → i ≠ 0 → readWord Config.sampleW State.reset.block i = 0#32) ∧
  (∀ b : Block, readWord Config.sampleW b 0 = 0x00000110#32) ∧
  (∀ s : State, s.assertReset.block = State.reset.block ∧ s.assertReset.streams = s.streams)

/-- R75, R125, R127: the reset input and the soft reset leave the same block, the reset one, and keep every queue as it is;
the engine then takes no beat. -/
def Obligations.ResetAbandonsRunningCommand : Prop :=
  (∀ (s : State) (rest : List Move), s.agenda = .assertReset :: rest →
    ∃ t, step s = .next t ∧ t.block = Block.reset ∧ t.streams = s.streams ∧ t.rst = true ∧ t.agenda = rest ∧
      t.seen = s.seen ∧ engineTurn t = .next t ∧ engineTurn t.releaseReset = .next t.releaseReset) ∧
  (∀ (s : State) (d : Word) (rest : List Move), s.rst = false → d.getLsbD 0 = true → s.agenda = .write 1 d :: rest →
    ∃ t, step s = .next t ∧ t.block = Block.reset ∧ t.streams = s.streams ∧ t.rst = false ∧ t.agenda = rest ∧
      t.seen = s.seen ∧ engineTurn t = .next t)

/-- R125: while the reset input is asserted no register access and no beat changes anything. -/
def Obligations.AssertedResetBlocksAccessesAndBeats : Prop :=
  ∀ (s : State) (m : Move) (rest : List Move), s.rst = true → s.agenda = m :: rest →
    m = .engine ∨ m = .wait ∨ (∃ i, i < 64 ∧ m = .read i) ∨ (∃ i d, i < 64 ∧ m = .write i d) →
    step s = .next (s.withAgenda rest)

/-! ## Streams and the interrupt output -/

/-- R46, R64: each stream is first in, first out: an offer appends to an input queue; a collection takes the head of an
output queue, which the host gets back. There is no premise on the reset input: that an offer or a collection happens also
while it is asserted is the model's own reading (log entry 5), and so is the record of what the host gets back (log
entry 16). -/
def Obligations.OffersAppendAndCollectionsTakeHeads : Prop :=
  ∀ (s : State) (rest : List Move),
    (∀ v, s.agenda = .offerS v :: rest →
      step s = .next ((s.withAgenda rest).withStreams { s.streams with sIn := s.streams.sIn ++ [v] })) ∧
    (∀ v, s.agenda = .offerP v :: rest →
      step s = .next ((s.withAgenda rest).withStreams { s.streams with pIn := s.streams.pIn ++ [v] })) ∧
    (∀ v, s.agenda = .offerB v :: rest →
      step s = .next ((s.withAgenda rest).withStreams { s.streams with bIn := s.streams.bIn ++ [v] })) ∧
    (∀ v q, s.agenda = .collectS :: rest → s.streams.sOut = v :: q →
      step s = .next (((s.withAgenda rest).withStreams { s.streams with sOut := q }).withSeen (.sample v))) ∧
    (∀ v q, s.agenda = .collectP :: rest → s.streams.pOut = v :: q →
      step s = .next (((s.withAgenda rest).withStreams { s.streams with pOut := q }).withSeen (.byte v))) ∧
    (∀ v q, s.agenda = .collectB :: rest → s.streams.bOut = v :: q →
      step s = .next (((s.withAgenda rest).withStreams { s.streams with bOut := q }).withSeen (.bit v)))

/-- R35, R116, R117: `IRQ` is `IE` and `DONE` in every block, in which steps it rises, and in which it falls. -/
def Obligations.InterruptEdges : Prop :=
  (∀ b : Block, irq b = (b.ie && b.done)) ∧
  ∀ s t : State, step s = .next t →
    (irq s.block = false → irq t.block = true →
      (s.block.ie = true ∧ s.block.done = false ∧ t.block.done = true ∧ t.block.busy = false) ∨
      (s.block.done = true ∧ ∃ d rest, s.agenda = .write 1 d :: rest ∧ d.getLsbD 0 = false ∧ d.getLsbD 1 = true)) ∧
    (irq s.block = true → irq t.block = false →
      (∃ d rest, s.agenda = .write 3 d :: rest ∧ d.getLsbD 1 = true) ∨
      (∃ d rest, s.agenda = .write 2 d :: rest ∧ s.block.busy = false) ∨
      (∃ d rest, s.agenda = .write 1 d :: rest ∧ (d.getLsbD 0 = true ∨ d.getLsbD 1 = false)) ∨
      (∃ rest, s.agenda = .assertReset :: rest))

/-! ## The per-sample rule and the source's functions -/

/-- R83: `setlsb(s, b)` has bit 0 equal to `b` and every higher bit of `s`, for every sample width; at width 1 it is `b`. -/
def Obligations.SetLsbReplacesBitZeroOnly : Prop :=
  (∀ (sw : Nat) (s : BitVec sw) (b : Bit), 1 ≤ sw →
    (setLsb s b).getLsbD 0 = b ∧ ∀ j, 1 ≤ j → (setLsb s b).getLsbD j = s.getLsbD j) ∧
  (∀ (s : BitVec 1) (b : Bit), setLsb s b = BitVec.ofBool b)

/-- R84: the block's rule equals both of the source's formulations on the bit pattern. -/
def Obligations.SetLsbEqualsBothSourceFormulas : Prop :=
  ∀ (sw : Nat) (s : BitVec sw), 1 ≤ sw →
    setLsb s true = s ||| 1#sw ∧ setLsb s false = s &&& ~~~1#sw ∧
    setLsb s false = if s.getLsbD 0 then s - 1#sw else s

/-- R85: the change of the two's-complement value, for every sign and every sample width from 2 up, with no overflow. -/
def Obligations.SetLsbNumericEffect : Prop :=
  ∀ (sw : Nat) (s : BitVec sw) (b : Bit), 2 ≤ sw →
    sval (setLsb s b) - sval s = (b.toNat : Int) - ((s.getLsbD 0).toNat : Int)

/-- R62, R78: the framed bits of a payload below 2^32 bytes are the `framebit`s of it, `32 + 8 * L` of them. -/
def Obligations.FrameIsTheFramebits : Prop :=
  ∀ p : List Byte, p.length < 2 ^ 32 →
    frame p = .ok ((List.range (32 + 8 * p.length)).map (framebit (BitVec.ofNat 32 p.length) p))

/-- R86, R90: what the embedding function does to each sample of a sequence, by index. -/
def Obligations.EmbedChangesOnlyLeadingBitZeros : Prop :=
  ∀ (sw : Nat) (smp : List (BitVec sw)) (bits : List Bit), 1 ≤ sw → bits.length ≤ smp.length →
    ∃ out, embed smp bits = .ok out ∧ out.length = smp.length ∧
      ∀ (k : Nat) (x : BitVec sw), smp[k]? = some x → ∃ y, out[k]? = some y ∧
        (bits.length ≤ k → y = x) ∧
        (∀ b, bits[k]? = some b → y.getLsbD 0 = b ∧ ∀ j, 1 ≤ j → y.getLsbD j = x.getLsbD j)

/-- R103, on sequences: extraction gives back the payload that was framed and embedded, at every sample width. -/
def Obligations.ExtractOfEmbedOfFrame : Prop :=
  ∀ (sw : Nat) (smp out : List (BitVec sw)) (p : List Byte) (bits : List Bit), 1 ≤ sw → frame p = .ok bits →
    embed smp bits = .ok out → extract out = .ok p

/-! ## Invariants -/

/-- R126: the reset state meets the invariant. -/
def Obligations.ResetMeetsInvariant : Prop := State.reset.inv

/-- R24, R33, R72, R105, R114, R125: every step from a state that meets the invariant gives a state that meets it. -/
def Obligations.StepKeepsInvariant : Prop := ∀ s t : State, s.inv → step s = .next t → t.inv

/-- R72: no step from a state that meets the invariant faults: a running engine always has one of the four commands. -/
def Obligations.NoFaultUnderInvariant : Prop := ∀ (s : State) (f : Fault), s.inv → step s ≠ .fault f

/-- R17, R31: in a step, `POS` keeps its value, increases by exactly 1 in a beat of a running command (a turn of the
engine, with no host move pending or with `engine` or `wait` first, log entry 2), or is cleared by an accepted word or a
reset. -/
def Obligations.PositionMovesByOneOrIsCleared : Prop :=
  ∀ s t : State, step s = .next t →
    t.block.pos = s.block.pos ∨
    (s.rst = false ∧ s.block.busy = true ∧ t.block.pos = s.block.pos + 1#64 ∧
      (s.agenda = [] ∨ ∃ rest, s.agenda = .engine :: rest ∨ s.agenda = .wait :: rest)) ∨
    (t.block.pos = 0#64 ∧
      ((∃ d rest, s.agenda = .write 2 d :: rest ∧ s.block.busy = false) ∨
       (∃ d rest, s.agenda = .write 1 d :: rest ∧ d.getLsbD 0 = true) ∨ (∃ rest, s.agenda = .assertReset :: rest)))

/-- R25 to R27, R40, R126: an operand register changes only by the host's write to one of its halves or by a reset. -/
def Obligations.OperandsChangeOnlyByHostWriteOrReset : Prop :=
  ∀ s t : State, step s = .next t →
    (∀ rest, s.agenda ≠ .assertReset :: rest) → (∀ d rest, s.agenda = .write 1 d :: rest → d.getLsbD 0 = false) →
    (t.block.payloadLen = s.block.payloadLen ∨ ∃ i d rest, s.agenda = .write i d :: rest ∧ (i = 4 ∨ i = 5)) ∧
    (t.block.sampleCount = s.block.sampleCount ∨ ∃ i d rest, s.agenda = .write i d :: rest ∧ (i = 6 ∨ i = 7)) ∧
    (t.block.bitCount = s.block.bitCount ∨ ∃ i d rest, s.agenda = .write i d :: rest ∧ (i = 8 ∨ i = 9))

/-- R54, R76: while a command runs, no step changes what it latched; `w.total` changes only in the EXTRACT beat at 31. -/
def Obligations.LatchedOperandsFixedWhileRunning : Prop :=
  ∀ s t : State, step s = .next t → s.block.busy = true → t.block.busy = true →
    t.block.w.op = s.block.w.op ∧ t.block.w.len = s.block.w.len ∧ t.block.w.n = s.block.w.n ∧
    t.block.w.nbits = s.block.w.nbits ∧
    (t.block.w.total = s.block.w.total ∨ (s.block.w.op = opcodeOf .extract ∧ s.block.pos = 31#64))

/-- R46, R50, R51, R76: an enabled beat and a quiet move of the host (an offer, a collection of an item that is there, a
write to an operand register) can be taken in either order, with the same state after both. -/
def Obligations.QuietMovesCommuteWithBeats : Prop :=
  ∀ (s : State) (m : Move), beatEnabled s = true → s.quietMove m = true →
    ∃ t u v, engineTurn s = .next t ∧ runMove m s = .next u ∧ runMove m t = .next v ∧ engineTurn u = .next v

/-! ## Whole commands -/

/-- R79, R81: FRAME of a payload that is offered: the command word and `32 + 8 * L` turns of the engine give `frame(P)` on
`B_OUT`, take exactly the payload from `P_IN`, and end with success. -/
def Obligations.FrameCommandGivesFrame : Prop :=
  ∀ (s : State) (p rest : List Byte), s.ready → p.length < 2 ^ 32 → s.block.payloadLen.toNat = p.length →
    s.streams.pIn = p ++ rest →
    ∃ t u bits, exec .frame s = .next t ∧ engineBeats (32 + 8 * p.length) t = .next u ∧ frame p = .ok bits ∧
      bits.length = 32 + 8 * p.length ∧
      u.streams = { s.streams with pIn := rest, bOut := s.streams.bOut ++ bits } ∧
      u.block.succeeded ∧ u.block.pos.toNat = 32 + 8 * p.length ∧ u.block.decodedLen = 0#32

/-- R87, R89: EMBED of a payload and samples that are offered, with enough samples: the command word and `N` turns of the
engine give `embed(S, frame(P))` on `S_OUT`, take exactly the samples and the payload, and end with success. -/
def Obligations.EmbedCommandGivesEmbedOfFrame : Prop :=
  ∀ (s : State) (p pRest : List Byte) (smp sRest : List (BitVec Config.sampleW)), s.ready → p.length < 2 ^ 32 →
    s.block.payloadLen.toNat = p.length → s.block.sampleCount.toNat = smp.length → 32 + 8 * p.length ≤ smp.length →
    s.streams.pIn = p ++ pRest → s.streams.sIn = smp ++ sRest →
    ∃ t u bits out, exec .embed s = .next t ∧ engineBeats smp.length t = .next u ∧ frame p = .ok bits ∧
      embed smp bits = .ok out ∧
      u.streams = { s.streams with pIn := pRest, sIn := sRest, sOut := s.streams.sOut ++ out } ∧
      u.block.succeeded ∧ u.block.pos.toNat = smp.length

/-- R91, R92: EMBED_RAW of bits and samples that are offered, with enough samples: the command word and `N` turns of the
engine give `embed(S, bits)` on `S_OUT`, take exactly the samples and the bits, and end with success. -/
def Obligations.EmbedRawCommandGivesEmbed : Prop :=
  ∀ (s : State) (bits bRest : List Bit) (smp sRest : List (BitVec Config.sampleW)), s.ready →
    s.block.bitCount.toNat = bits.length → s.block.sampleCount.toNat = smp.length → bits.length ≤ smp.length →
    s.streams.bIn = bits ++ bRest → s.streams.sIn = smp ++ sRest →
    ∃ t u out, exec .embedRaw s = .next t ∧ engineBeats smp.length t = .next u ∧ embed smp bits = .ok out ∧
      u.streams = { s.streams with bIn := bRest, sIn := sRest, sOut := s.streams.sOut ++ out } ∧
      u.block.succeeded ∧ u.block.pos.toNat = smp.length

/-- R98, R100, R101: EXTRACT of samples that are offered does what `extract(S)` says: on success it gives exactly those
bytes and takes exactly `32 + 8 * length` samples; on a truncated watermark it takes 32 samples and gives nothing; with
fewer than 32 samples it does nothing but fail. -/
def Obligations.ExtractCommandGivesExtract : Prop :=
  ∀ (s : State) (smp sRest : List (BitVec Config.sampleW)), s.ready → s.block.sampleCount.toNat = smp.length →
    s.streams.sIn = smp ++ sRest →
    match extract smp with
    | .ok bytes => ∃ t u, exec .extract s = .next t ∧ engineBeats (32 + 8 * bytes.length) t = .next u ∧
        u.streams = { s.streams with
          sIn := smp.drop (32 + 8 * bytes.length) ++ sRest, pOut := s.streams.pOut ++ bytes } ∧
        u.block.succeeded ∧ u.block.pos.toNat = 32 + 8 * bytes.length ∧ u.block.decodedLen.toNat = bytes.length
    | .error (.truncatedWatermark need available) => ∃ t u, exec .extract s = .next t ∧
        engineBeats 32 t = .next u ∧ u.streams = { s.streams with sIn := smp.drop 32 ++ sRest } ∧
        u.block.failed .truncatedWatermark need available ∧ u.block.pos.toNat = 32 ∧
        need = 32 + 8 * u.block.decodedLen.toNat ∧ available = smp.length
    | .error (.insufficientSamples available) => ∃ t, exec .extract s = .next t ∧ t.streams = s.streams ∧
        t.block.failed .insufficientSamples 32 available ∧ t.block.pos.toNat = 0 ∧ available = smp.length
    | .error (.capacityExceeded _ _) => False
    | .error (.payloadTooLarge _) => False

/-- R103: EMBED and then EXTRACT on what EMBED gave, in any ready block, gives the payload back. -/
def Obligations.ExtractGivesBackWhatEmbedHid : Prop :=
  ∀ (s : State) (p : List Byte) (smp : List (BitVec Config.sampleW)), s.ready → p.length < 2 ^ 32 →
    s.block.payloadLen.toNat = p.length → s.block.sampleCount.toNat = smp.length → 32 + 8 * p.length ≤ smp.length →
    s.streams.pIn = p → s.streams.sIn = smp → s.streams.sOut = [] →
    ∃ t u, exec .embed s = .next t ∧ engineBeats smp.length t = .next u ∧ u.block.succeeded ∧
      ∀ v : State, v.ready → v.block.sampleCount.toNat = smp.length → v.streams.sIn = u.streams.sOut →
        ∃ t' u', exec .extract v = .next t' ∧ engineBeats (32 + 8 * p.length) t' = .next u' ∧
          u'.block.succeeded ∧ u'.block.decodedLen.toNat = p.length ∧ u'.streams.pOut = v.streams.pOut ++ p

/-- R93: EMBED gives the same samples as EMBED_RAW fed the bits FRAME gives for the same payload; and where there are too
few samples both fail with the same record. -/
def Obligations.EmbedIsFrameThenEmbedRaw : Prop :=
  (∀ (s f r : State) (p : List Byte) (smp : List (BitVec Config.sampleW)),
    s.ready → f.ready → r.ready → p.length < 2 ^ 32 → 32 + 8 * p.length ≤ smp.length →
    s.block.payloadLen.toNat = p.length → s.block.sampleCount.toNat = smp.length → s.streams.pIn = p →
    s.streams.sIn = smp → s.streams.sOut = [] →
    f.block.payloadLen.toNat = p.length → f.streams.pIn = p → f.streams.bOut = [] →
    r.block.bitCount.toNat = 32 + 8 * p.length → r.block.sampleCount.toNat = smp.length → r.streams.sIn = smp →
    r.streams.sOut = [] →
    ∃ s1 s2 f1 f2, exec .embed s = .next s1 ∧ engineBeats smp.length s1 = .next s2 ∧ s2.block.succeeded ∧
      exec .frame f = .next f1 ∧ engineBeats (32 + 8 * p.length) f1 = .next f2 ∧ f2.block.succeeded ∧
      (r.streams.bIn = f2.streams.bOut →
        ∃ r1 r2, exec .embedRaw r = .next r1 ∧ engineBeats smp.length r1 = .next r2 ∧ r2.block.succeeded ∧
          r2.streams.sOut = s2.streams.sOut)) ∧
  (∀ s r : State, s.ready → r.ready → s.block.payloadLen.toNat < 2 ^ 32 →
    s.block.sampleCount.toNat < 32 + 8 * s.block.payloadLen.toNat →
    r.block.bitCount.toNat = 32 + 8 * s.block.payloadLen.toNat → r.block.sampleCount = s.block.sampleCount →
    ∃ s1 r1, exec .embed s = .next s1 ∧ exec .embedRaw r = .next r1 ∧
      s1.block.done = true ∧ r1.block.done = true ∧
      s1.block.errCode = .capacityExceeded ∧ r1.block.errCode = .capacityExceeded ∧
      s1.block.errA = r1.block.errA ∧ s1.block.errB = r1.block.errB)

/-! ## Sample widths -/

/-- R8, R83, R96: the machine takes any sample width: `exec` and `step` are the machine of any width at 16, and a beat on
samples cut down to fewer bits is the beat on the samples, its queues cut down alike; so no beat depends on the width or
on how many higher bits a sample has. -/
def Obligations.BeatsAgreeAtEveryWidth : Prop :=
  (∀ (i : Instr) (s : State), exec i s = execAt i s) ∧ Sys2Proof.core = machineAt 16 ∧
  (∀ (sw sw' : Nat) (i : Instr) (b : Block) (q : Streams sw), 1 ≤ sw' → sw' ≤ sw →
    beatOf i b (q.narrow sw') = (beatOf i b q).map fun r => (r.1, r.2.narrow sw'))
end

