-- ==== Sys2Proof/Laws/State.lean ====
section
/-!
SUPPORT. The small lemmas of the machine state's updates: one per field per update, each true by `rfl`, so that no proof
unfolds a record update.
-/

namespace Sys2Proof.Machine

@[simp] theorem State.withBlock_block {sw : Nat} (s : State sw) (b : Block) : (s.withBlock b).block = b := rfl
@[simp] theorem State.withBlock_streams {sw : Nat} (s : State sw) (b : Block) : (s.withBlock b).streams = s.streams := rfl
@[simp] theorem State.withBlock_rst {sw : Nat} (s : State sw) (b : Block) : (s.withBlock b).rst = s.rst := rfl
@[simp] theorem State.withBlock_agenda {sw : Nat} (s : State sw) (b : Block) : (s.withBlock b).agenda = s.agenda := rfl
@[simp] theorem State.withBlock_seen {sw : Nat} (s : State sw) (b : Block) : (s.withBlock b).seen = s.seen := rfl

@[simp] theorem State.withStreams_block {sw : Nat} (s : State sw) (q : Streams sw) : (s.withStreams q).block = s.block := rfl
@[simp] theorem State.withStreams_streams {sw : Nat} (s : State sw) (q : Streams sw) : (s.withStreams q).streams = q := rfl
@[simp] theorem State.withStreams_rst {sw : Nat} (s : State sw) (q : Streams sw) : (s.withStreams q).rst = s.rst := rfl
@[simp] theorem State.withStreams_agenda {sw : Nat} (s : State sw) (q : Streams sw) : (s.withStreams q).agenda = s.agenda := rfl
@[simp] theorem State.withStreams_seen {sw : Nat} (s : State sw) (q : Streams sw) : (s.withStreams q).seen = s.seen := rfl

@[simp] theorem State.withRst_block {sw : Nat} (s : State sw) (r : Bool) : (s.withRst r).block = s.block := rfl
@[simp] theorem State.withRst_streams {sw : Nat} (s : State sw) (r : Bool) : (s.withRst r).streams = s.streams := rfl
@[simp] theorem State.withRst_rst {sw : Nat} (s : State sw) (r : Bool) : (s.withRst r).rst = r := rfl
@[simp] theorem State.withRst_agenda {sw : Nat} (s : State sw) (r : Bool) : (s.withRst r).agenda = s.agenda := rfl
@[simp] theorem State.withRst_seen {sw : Nat} (s : State sw) (r : Bool) : (s.withRst r).seen = s.seen := rfl

@[simp] theorem State.withAgenda_block {sw : Nat} (s : State sw) (ms : List (Move sw)) : (s.withAgenda ms).block = s.block := rfl
@[simp] theorem State.withAgenda_streams {sw : Nat} (s : State sw) (ms : List (Move sw)) : (s.withAgenda ms).streams = s.streams := rfl
@[simp] theorem State.withAgenda_rst {sw : Nat} (s : State sw) (ms : List (Move sw)) : (s.withAgenda ms).rst = s.rst := rfl
@[simp] theorem State.withAgenda_agenda {sw : Nat} (s : State sw) (ms : List (Move sw)) : (s.withAgenda ms).agenda = ms := rfl
@[simp] theorem State.withAgenda_seen {sw : Nat} (s : State sw) (ms : List (Move sw)) : (s.withAgenda ms).seen = s.seen := rfl

@[simp] theorem State.withSeen_block {sw : Nat} (s : State sw) (x : Seen sw) : (s.withSeen x).block = s.block := rfl
@[simp] theorem State.withSeen_streams {sw : Nat} (s : State sw) (x : Seen sw) : (s.withSeen x).streams = s.streams := rfl
@[simp] theorem State.withSeen_rst {sw : Nat} (s : State sw) (x : Seen sw) : (s.withSeen x).rst = s.rst := rfl
@[simp] theorem State.withSeen_agenda {sw : Nat} (s : State sw) (x : Seen sw) : (s.withSeen x).agenda = s.agenda := rfl
@[simp] theorem State.withSeen_seen {sw : Nat} (s : State sw) (x : Seen sw) : (s.withSeen x).seen = s.seen ++ [x] := rfl

@[simp] theorem State.assertReset_block {sw : Nat} (s : State sw) : s.assertReset.block = Block.reset := rfl
@[simp] theorem State.assertReset_streams {sw : Nat} (s : State sw) : s.assertReset.streams = s.streams := rfl
@[simp] theorem State.assertReset_rst {sw : Nat} (s : State sw) : s.assertReset.rst = true := rfl
@[simp] theorem State.assertReset_agenda {sw : Nat} (s : State sw) : s.assertReset.agenda = s.agenda := rfl
@[simp] theorem State.assertReset_seen {sw : Nat} (s : State sw) : s.assertReset.seen = s.seen := rfl

@[simp] theorem State.releaseReset_block {sw : Nat} (s : State sw) : s.releaseReset.block = s.block := rfl
@[simp] theorem State.releaseReset_streams {sw : Nat} (s : State sw) : s.releaseReset.streams = s.streams := rfl
@[simp] theorem State.releaseReset_rst {sw : Nat} (s : State sw) : s.releaseReset.rst = false := rfl
@[simp] theorem State.releaseReset_agenda {sw : Nat} (s : State sw) : s.releaseReset.agenda = s.agenda := rfl
@[simp] theorem State.releaseReset_seen {sw : Nat} (s : State sw) : s.releaseReset.seen = s.seen := rfl

/-- A host register access while the reset input is released. -/
theorem State.onBlock_released {sw : Nat} {s : State sw} (h : s.rst = false) (f : Block → Block) :
    s.onBlock f = s.withBlock (f s.block) := by simp [State.onBlock, h]

/-- A host register access while the reset input is asserted (R125). -/
theorem State.onBlock_asserted {sw : Nat} {s : State sw} (h : s.rst = true) (f : Block → Block) : s.onBlock f = s := by
  simp [State.onBlock, h]

theorem State.onBlock_block {sw : Nat} (s : State sw) (f : Block → Block) :
    (s.onBlock f).block = if s.rst then s.block else f s.block := by
  unfold State.onBlock; split <;> rfl

@[simp] theorem State.onBlock_streams {sw : Nat} (s : State sw) (f : Block → Block) : (s.onBlock f).streams = s.streams := by
  unfold State.onBlock; split <;> rfl
@[simp] theorem State.onBlock_rst {sw : Nat} (s : State sw) (f : Block → Block) : (s.onBlock f).rst = s.rst := by
  unfold State.onBlock; split <;> rfl
@[simp] theorem State.onBlock_agenda {sw : Nat} (s : State sw) (f : Block → Block) : (s.onBlock f).agenda = s.agenda := by
  unfold State.onBlock; split <;> rfl
@[simp] theorem State.onBlock_seen {sw : Nat} (s : State sw) (f : Block → Block) : (s.onBlock f).seen = s.seen := by
  unfold State.onBlock; split <;> rfl

end Sys2Proof.Machine
end

