-- ==== Sys2Proof/Laws/Ops.lean ====
section
/-!
SUPPORT. What the shared operations do: bits of words, the end of a command, acceptance, the end of a beat.
-/

namespace Sys2Proof.Machine

/-! ### Bits -/

/-- Bit 0 of `setLsb s b` is `b` and every other bit is that of `s` (R83). -/
theorem getLsbD_setLsb {sw : Nat} (s : BitVec sw) (b : Bit) (i : Nat) :
    (setLsb s b).getLsbD i = if i = 0 then (decide (0 < sw) && b) else s.getLsbD i := by
  simp only [setLsb, BitVec.getLsbD_setWidth, BitVec.getLsbD_append, BitVec.getLsbD_extractLsb']
  rcases i with _ | i
  · simp
  · simp only [Nat.add_one_ne_zero, if_false]
    have h1 : ¬ (i + 1 < 1) := by omega
    simp only [h1, if_false, Nat.add_sub_cancel]
    have h2 : 1 + i = i + 1 := by omega
    rw [h2]
    by_cases h : i + 1 < sw
    · have h3 : i < sw - 1 := by omega
      simp [h, h3]
    · simp [h, BitVec.getLsbD_of_ge s (i + 1) (by omega)]

/-- `lsb` reads what `setLsb` wrote, whatever the sample width. -/
theorem lsb_setLsb {sw : Nat} (h : 0 < sw) (s : BitVec sw) (b : Bit) : lsb (setLsb s b) = b := by
  unfold lsb; rw [getLsbD_setLsb]; simp [h]

/-- Bit `k` of `writeBit v k b` is `b` and every other bit is that of `v` (R99). -/
theorem getLsbD_writeBit {n : Nat} (v : BitVec n) (k : Nat) (b : Bit) (i : Nat) :
    (writeBit v k b).getLsbD i = if i = k then (decide (k < n) && b) else v.getLsbD i := by
  simp only [writeBit, BitVec.getLsbD_or, BitVec.getLsbD_and, BitVec.getLsbD_not, BitVec.getLsbD_shiftLeft,
    BitVec.getLsbD_setWidth, BitVec.getLsbD_ofBool, BitVec.getLsbD_one]
  by_cases hi : i < n
  · rcases lt_trichotomy i k with h | h | h
    · simp [hi, h, Nat.ne_of_lt h]
    · have hn : 0 < n := by omega
      subst h; simp [hi, hn]
    · have h1 : ¬ i < k := by omega
      have h2 : ¬ (i - k = 0) := by omega
      have h3 : i ≠ k := by omega
      simp [hi, h1, h2, h3]
  · rw [BitVec.getLsbD_of_ge v i (by omega)]
    by_cases h : i = k
    · subst h; simp [hi]
    · simp [hi, h]

/-! ### The end of a command (R71) -/

@[simp] theorem complete_ie (c : ErrCode) (b : Block) : (complete c b).ie = b.ie := rfl
@[simp] theorem complete_busy (c : ErrCode) (b : Block) : (complete c b).busy = false := rfl
@[simp] theorem complete_done (c : ErrCode) (b : Block) : (complete c b).done = true := rfl
@[simp] theorem complete_errCode (c : ErrCode) (b : Block) : (complete c b).errCode = c := rfl
@[simp] theorem complete_cmdIgnored (c : ErrCode) (b : Block) : (complete c b).cmdIgnored = b.cmdIgnored := rfl
@[simp] theorem complete_op (c : ErrCode) (b : Block) : (complete c b).op = b.op := rfl
@[simp] theorem complete_payloadLen (c : ErrCode) (b : Block) : (complete c b).payloadLen = b.payloadLen := rfl
@[simp] theorem complete_sampleCount (c : ErrCode) (b : Block) : (complete c b).sampleCount = b.sampleCount := rfl
@[simp] theorem complete_bitCount (c : ErrCode) (b : Block) : (complete c b).bitCount = b.bitCount := rfl
@[simp] theorem complete_errA (c : ErrCode) (b : Block) : (complete c b).errA = b.errA := rfl
@[simp] theorem complete_errB (c : ErrCode) (b : Block) : (complete c b).errB = b.errB := rfl
@[simp] theorem complete_decodedLen (c : ErrCode) (b : Block) : (complete c b).decodedLen = b.decodedLen := rfl
@[simp] theorem complete_pos (c : ErrCode) (b : Block) : (complete c b).pos = b.pos := rfl
@[simp] theorem complete_w (c : ErrCode) (b : Block) : (complete c b).w = b.w := rfl

@[simp] theorem fail_ie (c : ErrCode) (x y : DWord) (b : Block) : (fail c x y b).ie = b.ie := rfl
@[simp] theorem fail_busy (c : ErrCode) (x y : DWord) (b : Block) : (fail c x y b).busy = false := rfl
@[simp] theorem fail_done (c : ErrCode) (x y : DWord) (b : Block) : (fail c x y b).done = true := rfl
@[simp] theorem fail_errCode (c : ErrCode) (x y : DWord) (b : Block) : (fail c x y b).errCode = c := rfl
@[simp] theorem fail_cmdIgnored (c : ErrCode) (x y : DWord) (b : Block) : (fail c x y b).cmdIgnored = b.cmdIgnored := rfl
@[simp] theorem fail_op (c : ErrCode) (x y : DWord) (b : Block) : (fail c x y b).op = b.op := rfl
@[simp] theorem fail_payloadLen (c : ErrCode) (x y : DWord) (b : Block) : (fail c x y b).payloadLen = b.payloadLen := rfl
@[simp] theorem fail_sampleCount (c : ErrCode) (x y : DWord) (b : Block) : (fail c x y b).sampleCount = b.sampleCount := rfl
@[simp] theorem fail_bitCount (c : ErrCode) (x y : DWord) (b : Block) : (fail c x y b).bitCount = b.bitCount := rfl
@[simp] theorem fail_errA (c : ErrCode) (x y : DWord) (b : Block) : (fail c x y b).errA = x := rfl
@[simp] theorem fail_errB (c : ErrCode) (x y : DWord) (b : Block) : (fail c x y b).errB = y := rfl
@[simp] theorem fail_decodedLen (c : ErrCode) (x y : DWord) (b : Block) : (fail c x y b).decodedLen = b.decodedLen := rfl
@[simp] theorem fail_pos (c : ErrCode) (x y : DWord) (b : Block) : (fail c x y b).pos = b.pos := rfl
@[simp] theorem fail_w (c : ErrCode) (x y : DWord) (b : Block) : (fail c x y b).w = b.w := rfl

/-! ### Acceptance (R67, R68) -/

@[simp] theorem acceptClear_ie (op : Opcode) (b : Block) : (acceptClear op b).ie = b.ie := rfl
@[simp] theorem acceptClear_busy (op : Opcode) (b : Block) : (acceptClear op b).busy = b.busy := rfl
@[simp] theorem acceptClear_done (op : Opcode) (b : Block) : (acceptClear op b).done = false := rfl
@[simp] theorem acceptClear_errCode (op : Opcode) (b : Block) : (acceptClear op b).errCode = .noError := rfl
@[simp] theorem acceptClear_cmdIgnored (op : Opcode) (b : Block) : (acceptClear op b).cmdIgnored = false := rfl
@[simp] theorem acceptClear_op (op : Opcode) (b : Block) : (acceptClear op b).op = op := rfl
@[simp] theorem acceptClear_payloadLen (op : Opcode) (b : Block) : (acceptClear op b).payloadLen = b.payloadLen := rfl
@[simp] theorem acceptClear_sampleCount (op : Opcode) (b : Block) : (acceptClear op b).sampleCount = b.sampleCount := rfl
@[simp] theorem acceptClear_bitCount (op : Opcode) (b : Block) : (acceptClear op b).bitCount = b.bitCount := rfl
@[simp] theorem acceptClear_errA (op : Opcode) (b : Block) : (acceptClear op b).errA = 0#64 := rfl
@[simp] theorem acceptClear_errB (op : Opcode) (b : Block) : (acceptClear op b).errB = 0#64 := rfl
@[simp] theorem acceptClear_decodedLen (op : Opcode) (b : Block) : (acceptClear op b).decodedLen = 0#32 := rfl
@[simp] theorem acceptClear_pos (op : Opcode) (b : Block) : (acceptClear op b).pos = 0#64 := rfl
@[simp] theorem acceptClear_w (op : Opcode) (b : Block) :
    (acceptClear op b).w = { Work.reset with op := op } := rfl

/-- What `launch` can do: keep a failed start, complete a command of no beat, or set `BUSY` (R68). -/
theorem launch_cases (b : Block) :
    (b.done = true ∧ launch b = b) ∨
    (b.done = false ∧ b.w.total = 0#64 ∧ launch b = complete .noError b) ∨
    (b.done = false ∧ b.w.total ≠ 0#64 ∧ launch b = { b with busy := true }) := by
  unfold launch
  cases h : b.done
  · by_cases h0 : b.w.total = 0#64
    · exact .inr (.inl ⟨rfl, h0, by simp [h0]⟩)
    · exact .inr (.inr ⟨rfl, h0, by simp [h0]⟩)
  · exact .inl ⟨rfl, by simp⟩

/-- A start part that failed stays failed (R68). -/
@[simp] theorem launch_fail (c : ErrCode) (x y : DWord) (b : Block) : launch (fail c x y b) = fail c x y b := by
  simp [launch]

/-- Acceptance of a command while the engine is idle (R67). -/
theorem acceptCommand_idle {b : Block} (h : b.busy = false) (op : Opcode) (start : Block → Block) :
    acceptCommand op start b = launch (start (acceptClear op b)) := by simp [acceptCommand, h]

/-- A command word while the engine is busy (R70). -/
theorem acceptCommand_busy {b : Block} (h : b.busy = true) (op : Opcode) (start : Block → Block) :
    acceptCommand op start b = { b with cmdIgnored := true } := by simp [acceptCommand, h, ignoreCommand]

/-! ### The end of a beat (R72) -/

@[simp] theorem advance_pos (b : Block) : (advance b).pos = b.pos + 1#64 := rfl
@[simp] theorem advance_w (b : Block) : (advance b).w = b.w := rfl

/-- The end of a beat either completes the command or leaves it running, with `POS` advanced (R72). -/
theorem endBeat_cases (b : Block) :
    (b.pos + 1#64 = b.w.total ∧
      endBeat b = { b with pos := b.pos + 1#64, busy := false, done := true, errCode := .noError }) ∨
    (b.pos + 1#64 ≠ b.w.total ∧ endBeat b = { b with pos := b.pos + 1#64 }) := by
  unfold endBeat
  by_cases h : b.pos + 1#64 = b.w.total
  · left; exact ⟨h, by simp [h, complete, advance]⟩
  · right; exact ⟨h, by simp [h, advance]⟩

@[simp] theorem endBeat_pos (b : Block) : (endBeat b).pos = b.pos + 1#64 := by
  rcases endBeat_cases b with ⟨_, h⟩ | ⟨_, h⟩ <;> rw [h]
@[simp] theorem endBeat_w (b : Block) : (endBeat b).w = b.w := by
  rcases endBeat_cases b with ⟨_, h⟩ | ⟨_, h⟩ <;> rw [h]

/-- The end of a beat keeps every register but `POS`, the flags and `ERR_CODE` (R72). -/
theorem endBeat_frame (b : Block) :
    (endBeat b).ie = b.ie ∧ (endBeat b).cmdIgnored = b.cmdIgnored ∧ (endBeat b).op = b.op ∧
    (endBeat b).payloadLen = b.payloadLen ∧ (endBeat b).sampleCount = b.sampleCount ∧
    (endBeat b).bitCount = b.bitCount ∧ (endBeat b).decodedLen = b.decodedLen ∧ (endBeat b).errA = b.errA ∧
    (endBeat b).errB = b.errB := by
  rcases endBeat_cases b with ⟨_, h⟩ | ⟨_, h⟩ <;> rw [h] <;> simp

/-! ### Acknowledgement (R73) -/

/-- The write to `STATUS` changes `DONE` and `CMD_IGNORED` alone, and can only clear them (R73). -/
theorem acknowledge_frame (d : Word) (b : Block) :
    acknowledge d b = { b with done := (acknowledge d b).done, cmdIgnored := (acknowledge d b).cmdIgnored } ∧
    (acknowledge d b).done = (b.done && !d.getLsbD 1) ∧
    (acknowledge d b).cmdIgnored = (b.cmdIgnored && !d.getLsbD 8) := by
  refine ⟨rfl, ?_, ?_⟩
  · simp only [acknowledge]; cases d.getLsbD 1 <;> simp
  · simp only [acknowledge]; cases d.getLsbD 8 <;> simp

/-! ### Illegal words (R69, R70) -/

/-- An illegal word accepted by an idle block (R69). -/
theorem acceptIllegal_idle {b : Block} (h : b.busy = false) (d : Word) :
    acceptIllegal d b = fail .illegalCommand (d.setWidth 64) 0#64 (acceptClear (opcodeField d) b) := by
  simp [acceptIllegal, h, illegal]

/-- An illegal word while the engine is busy (R70). -/
theorem acceptIllegal_busy {b : Block} (h : b.busy = true) (d : Word) :
    acceptIllegal d b = { b with cmdIgnored := true } := by simp [acceptIllegal, h, ignoreCommand]

end Sys2Proof.Machine
end

