-- ==== Sys2Proof/Laws/Codec.lean ====
section
/-!
SUPPORT. The sizes of what the source's functions give (R78, R86), and the sum of bits (R95).
-/

namespace Sys2Proof.Machine

@[simp] theorem lengthBits_length (n : Nat) : (lengthBits n).length = 32 := by simp [lengthBits]

@[simp] theorem byteBits_length (x : Byte) : (byteBits x).length = 8 := by simp [byteBits]

/-- The payload bits of `L` bytes are `8 * L`. -/
theorem payloadBits_length (p : List Byte) : (p.flatMap byteBits).length = 8 * p.length := by
  induction p with
  | nil => rfl
  | cons x p ih => simp only [List.flatMap_cons, List.length_append, ih, byteBits_length, List.length_cons]; omega

/-- "Output: Bit Sequence of length `32 + 8*L`" (R78). -/
@[simp] theorem frameBits_length (p : List Byte) : (frameBits p).length = 32 + 8 * p.length := by
  simp only [frameBits, List.length_append, lengthBits_length, payloadBits_length]

/-- `frame` fails exactly for a payload of 2^32 bytes or more (R78). -/
theorem frame_ok_iff (p : List Byte) (bits : List Bit) : frame p = .ok bits ↔ p.length < 2 ^ 32 ∧ bits = frameBits p := by
  unfold frame
  split
  · rename_i h; constructor
    · intro h'; cases h'
    · intro h'; omega
  · rename_i h; constructor
    · intro h'; cases h'; exact ⟨by omega, rfl⟩
    · rintro ⟨_, rfl⟩; rfl

/-- "Output: new sample sequence, same length and order as input" (R86). -/
@[simp] theorem embedBits_length {sw : Nat} (smp : List (BitVec sw)) (bits : List Bit) :
    (embedBits smp bits).length = smp.length := by simp [embedBits]

/-- The sum of `n` bits is below `2 ^ n` (R95). -/
theorem sumBits_lt (bits : List Bit) : sumBits bits < 2 ^ bits.length := by
  induction bits with
  | nil => simp [sumBits]
  | cons b rest ih =>
    simp only [sumBits, List.length_cons, Nat.pow_succ]
    cases b <;> simp <;> omega

/-- A decoded length is an unsigned 32-bit value (R95). -/
theorem decodedLength_lt {sw : Nat} (smp : List (BitVec sw)) : decodedLength smp < 2 ^ 32 := by
  refine Nat.lt_of_lt_of_le (sumBits_lt _) (Nat.pow_le_pow_right (by omega) ?_)
  simp

end Sys2Proof.Machine
end

