-- ==== Sys2Proof/Laws/Decode.lean ====
section
/-!
SUPPORT. What the opcode map and the decoder answer.
-/

namespace Sys2Proof

/-- The opcode map and `opcodeOf` are inverse to each other (R58). -/
theorem opcodeInstr_eq_some_iff (op : Opcode) (i : Instr) : opcodeInstr op = some i ↔ op = opcodeOf i := by
  constructor
  · intro h
    unfold opcodeInstr at h
    split at h
    · cases h; assumption
    split at h
    · cases h; assumption
    split at h
    · cases h; assumption
    split at h
    · cases h; assumption
    · cases h
  · rintro rfl
    cases i <;> rfl

@[simp] theorem opcodeInstr_opcodeOf (i : Instr) : opcodeInstr (opcodeOf i) = some i :=
  (opcodeInstr_eq_some_iff _ _).mpr rfl

/-- Two commands with the same opcode are the same command. -/
theorem opcodeOf_injective {i j : Instr} (h : opcodeOf i = opcodeOf j) : i = j := by
  have := opcodeInstr_opcodeOf i
  rw [h, opcodeInstr_opcodeOf] at this
  exact (Option.some.inj this).symm

/-- What the decoder can answer: a command, with reserved bits zero and its opcode in the word, or an error (R59). -/
theorem decode_cases (d : Word) :
    (∃ i, decode d = .ok i ∧ rsvdField d = 0#28 ∧ opcodeField d = opcodeOf i) ∨
    (∃ e, decode d = .error e ∧ (rsvdField d ≠ 0#28 ∨ opcodeInstr (opcodeField d) = none)) := by
  unfold decode
  by_cases h : rsvdField d = 0#28
  · cases ho : opcodeInstr (opcodeField d) with
    | none => exact .inr ⟨.noSuchOpcode (opcodeField d), by simp [h], .inr rfl⟩
    | some i => exact .inl ⟨i, by simp [h], h, (opcodeInstr_eq_some_iff _ _).mp ho⟩
  · exact .inr ⟨.reservedBitsSet, by simp [h], .inl h⟩

end Sys2Proof
end

