-- ==== Sys2Proof/Laws/Operands.lean ====
section
/-!
SUPPORT. The halves of a 64-bit quantity (R42), the framed bit count and the payload length check.
-/

namespace Sys2Proof.Machine

@[simp] theorem loWord_joinWords (hi lo : Word) : loWord (joinWords hi lo) = lo := by
  apply BitVec.eq_of_getLsbD_eq; intro i hi'
  simp only [loWord, joinWords, BitVec.getLsbD_extractLsb', BitVec.getLsbD_append]
  simp [hi']

@[simp] theorem hiWord_joinWords (hi lo : Word) : hiWord (joinWords hi lo) = hi := by
  apply BitVec.eq_of_getLsbD_eq; intro i hi'
  simp only [hiWord, joinWords, BitVec.getLsbD_extractLsb', BitVec.getLsbD_append]
  simp [hi']

theorem loWord_toNat (x : DWord) : (loWord x).toNat = x.toNat % 2 ^ 32 := by
  simp [loWord, BitVec.extractLsb'_toNat]

theorem hiWord_toNat (x : DWord) : (hiWord x).toNat = x.toNat / 2 ^ 32 := by
  simp [hiWord, BitVec.extractLsb'_toNat, Nat.shiftRight_eq_div_pow]
  have := x.isLt
  omega

/-- `32 + 8 * len` does not wrap (R9). -/
theorem framedCount_toNat (len : Word) : (framedCount len).toNat = 32 + 8 * len.toNat := by
  have := len.isLt
  simp [framedCount, BitVec.toNat_add, BitVec.toNat_mul]
  omega

/-- `PAYLOAD_LEN_HI != 0` says that the payload length is 2^32 or more (R25). -/
theorem lenTooLarge_iff (x : DWord) : lenTooLarge x = true ↔ 2 ^ 32 ≤ x.toNat := by
  have h := hiWord_toNat x
  simp only [lenTooLarge, bne_iff_ne, ne_eq, ← BitVec.toNat_inj, h]
  simp

theorem lenTooLarge_false_iff (x : DWord) : lenTooLarge x = false ↔ x.toNat < 2 ^ 32 := by
  rw [← Bool.not_eq_true, lenTooLarge_iff]; omega

/-- The framed bit count is at least 32, so a started FRAME or EMBED has a beat to take (R79, R87). -/
theorem framedCount_ne_zero (len : Word) : framedCount len ≠ 0#64 := by
  intro h
  have := congrArg BitVec.toNat h
  rw [framedCount_toNat] at this
  simp at this

end Sys2Proof.Machine
end

