-- ==== Sys2Proof/Laws/Commands.lean ====
section
/-!
SUPPORT. What the start part of each command can do, and what a command word does: one lemma for all four commands,
at every sample width (`execAt`) and at this hardware's (`exec`).
-/

namespace Sys2Proof.Machine

/-- The start part of a command (R68). -/
def startOf : Instr → Block → Block
  | .frame => startFrame
  | .embed => startEmbed
  | .embedRaw => startEmbedRaw
  | .extract => startExtract

/-- A command word is the acceptance of its command, for every command and sample width; it always answers a next state
(R67 to R70). -/
theorem execAt_eq {sw : Nat} (i : Instr) (s : State sw) :
    execAt i s = .next (s.onBlock (acceptCommand (opcodeOf i) (startOf i))) := by
  cases i <;> rfl

/-- At this hardware's sample width `execAt` is `exec`, command by command. -/
theorem exec_eq_execAt (i : Instr) (s : State) : exec i s = execAt i s := by
  cases i <;> rfl

/-- `exec` is the acceptance of the command, for every command; it always answers a next state (R67 to R70). -/
theorem exec_eq (i : Instr) (s : State) :
    exec i s = .next (s.onBlock (acceptCommand (opcodeOf i) (startOf i))) := by
  rw [exec_eq_execAt, execAt_eq]

/-- A command word in a released, idle block: acceptance and start (R67, R68). -/
theorem execAt_ready {sw : Nat} {s : State sw} (hr : s.rst = false) (hb : s.block.busy = false) (i : Instr) :
    execAt i s = .next (s.withBlock (launch (startOf i (acceptClear (opcodeOf i) s.block)))) := by
  rw [execAt_eq, State.onBlock_released hr, acceptCommand_idle hb]

/-- `exec` in a released, idle block: acceptance and start (R67, R68). -/
theorem exec_ready {s : State} (hr : s.rst = false) (hb : s.block.busy = false) (i : Instr) :
    exec i s = .next (s.withBlock (launch (startOf i (acceptClear (opcodeOf i) s.block)))) := by
  rw [exec_eq_execAt, execAt_ready hr hb]

/-- A command word in a released, busy block (R70). -/
theorem execAt_busy {sw : Nat} {s : State sw} (hr : s.rst = false) (hb : s.block.busy = true) (i : Instr) :
    execAt i s = .next (s.withBlock { s.block with cmdIgnored := true }) := by
  rw [execAt_eq, State.onBlock_released hr, acceptCommand_busy hb]

/-- `exec` in a released, busy block (R70). -/
theorem exec_busy {s : State} (hr : s.rst = false) (hb : s.block.busy = true) (i : Instr) :
    exec i s = .next (s.withBlock { s.block with cmdIgnored := true }) := by
  rw [exec_eq_execAt, execAt_busy hr hb]

/-- What `start_FRAME` can do (R79). -/
theorem startFrame_cases (b : Block) :
    (2 ^ 32 ≤ b.payloadLen.toNat ∧ startFrame b = fail .payloadTooLarge b.payloadLen maxLen b) ∨
    (b.payloadLen.toNat < 2 ^ 32 ∧ startFrame b =
      { b with w := { b.w with len := loWord b.payloadLen, total := framedCount (loWord b.payloadLen) } }) := by
  unfold startFrame
  cases h : lenTooLarge b.payloadLen
  · exact .inr ⟨(lenTooLarge_false_iff _).mp h, by simp⟩
  · exact .inl ⟨(lenTooLarge_iff _).mp h, by simp⟩

/-- The framed bit count of a payload length below 2^32. -/
theorem framedCount_loWord {x : DWord} (h : x.toNat < 2 ^ 32) : (framedCount (loWord x)).toNat = 32 + 8 * x.toNat := by
  rw [framedCount_toNat, loWord_toNat, Nat.mod_eq_of_lt h]

/-- What `start_EMBED` can do (R87). -/
theorem startEmbed_cases (b : Block) :
    (2 ^ 32 ≤ b.payloadLen.toNat ∧ startEmbed b = fail .payloadTooLarge b.payloadLen maxLen b) ∨
    (b.payloadLen.toNat < 2 ^ 32 ∧ b.sampleCount < framedCount (loWord b.payloadLen) ∧ startEmbed b =
      fail .capacityExceeded (framedCount (loWord b.payloadLen)) b.sampleCount
        { b with w := { b.w with len := loWord b.payloadLen, nbits := framedCount (loWord b.payloadLen) } }) ∨
    (b.payloadLen.toNat < 2 ^ 32 ∧ framedCount (loWord b.payloadLen) ≤ b.sampleCount ∧ startEmbed b =
      { b with w := { b.w with len := loWord b.payloadLen, nbits := framedCount (loWord b.payloadLen),
                               n := b.sampleCount, total := b.sampleCount } }) := by
  unfold startEmbed
  cases h : lenTooLarge b.payloadLen
  · right
    have hl := (lenTooLarge_false_iff _).mp h
    by_cases hc : b.sampleCount < framedCount (loWord b.payloadLen)
    · exact .inl ⟨hl, hc, by simp [hc]⟩
    · exact .inr ⟨hl, BitVec.not_lt.mp hc, by simp [hc]⟩
  · exact .inl ⟨(lenTooLarge_iff _).mp h, by simp⟩

/-- What `start_EMBED_RAW` can do (R91). -/
theorem startEmbedRaw_cases (b : Block) :
    (b.sampleCount < b.bitCount ∧ startEmbedRaw b = fail .capacityExceeded b.bitCount b.sampleCount b) ∨
    (b.bitCount ≤ b.sampleCount ∧ startEmbedRaw b =
      { b with w := { b.w with nbits := b.bitCount, n := b.sampleCount, total := b.sampleCount } }) := by
  unfold startEmbedRaw
  by_cases hc : b.sampleCount < b.bitCount
  · exact .inl ⟨hc, by simp [hc]⟩
  · exact .inr ⟨BitVec.not_lt.mp hc, by simp [hc]⟩

/-- What `start_EXTRACT` can do (R98). -/
theorem startExtract_cases (b : Block) :
    (b.sampleCount < 32#64 ∧ startExtract b = fail .insufficientSamples 32#64 b.sampleCount b) ∨
    (32#64 ≤ b.sampleCount ∧ startExtract b = { b with w := { b.w with n := b.sampleCount, total := 32#64 } }) := by
  unfold startExtract
  by_cases hc : b.sampleCount < 32#64
  · exact .inl ⟨hc, by simp [hc]⟩
  · exact .inr ⟨BitVec.not_lt.mp hc, by simp [hc]⟩

/-- `launch` keeps every register but the flags and `ERR_CODE` (R68). -/
theorem launch_frame (b : Block) :
    (launch b).ie = b.ie ∧ (launch b).payloadLen = b.payloadLen ∧ (launch b).sampleCount = b.sampleCount ∧
    (launch b).bitCount = b.bitCount ∧ (launch b).pos = b.pos ∧ (launch b).w = b.w ∧ (launch b).op = b.op ∧
    (launch b).decodedLen = b.decodedLen ∧ (launch b).errA = b.errA ∧ (launch b).errB = b.errB := by
  rcases launch_cases b with ⟨_, h⟩ | ⟨_, _, h⟩ | ⟨_, _, h⟩ <;> rw [h] <;> simp

/-- A start part leaves an idle block idle (R68). -/
theorem startOf_busy (i : Instr) {b : Block} (hb : b.busy = false) : (startOf i b).busy = false := by
  cases i <;> simp only [startOf]
  · rcases startFrame_cases b with ⟨_, h⟩ | ⟨_, h⟩ <;> rw [h] <;> simp [hb]
  · rcases startEmbed_cases b with ⟨_, h⟩ | ⟨_, _, h⟩ | ⟨_, _, h⟩ <;> rw [h] <;> simp [hb]
  · rcases startEmbedRaw_cases b with ⟨_, h⟩ | ⟨_, h⟩ <;> rw [h] <;> simp [hb]
  · rcases startExtract_cases b with ⟨_, h⟩ | ⟨_, h⟩ <;> rw [h] <;> simp [hb]

/-- A start part keeps the operand registers, `OP`, `w.op`, `POS` and `DECODED_LEN` (R79, R87, R91, R98). -/
theorem startOf_keeps (i : Instr) (b : Block) :
    (startOf i b).ie = b.ie ∧ (startOf i b).payloadLen = b.payloadLen ∧ (startOf i b).sampleCount = b.sampleCount ∧
    (startOf i b).bitCount = b.bitCount ∧ (startOf i b).pos = b.pos ∧ (startOf i b).op = b.op ∧
    (startOf i b).w.op = b.w.op ∧ (startOf i b).decodedLen = b.decodedLen := by
  cases i <;> simp only [startOf]
  · rcases startFrame_cases b with ⟨_, h⟩ | ⟨_, h⟩ <;> rw [h] <;> simp
  · rcases startEmbed_cases b with ⟨_, h⟩ | ⟨_, _, h⟩ | ⟨_, _, h⟩ <;> rw [h] <;> simp
  · rcases startEmbedRaw_cases b with ⟨_, h⟩ | ⟨_, h⟩ <;> rw [h] <;> simp
  · rcases startExtract_cases b with ⟨_, h⟩ | ⟨_, h⟩ <;> rw [h] <;> simp

/-- After acceptance of a command by an idle block exactly one of `BUSY` and `DONE` is 1 (R68, R77). -/
theorem launch_startOf_flags (i : Instr) {b : Block} (hb : b.busy = false) :
    ((launch (startOf i (acceptClear (opcodeOf i) b))).busy = true ∧
      (launch (startOf i (acceptClear (opcodeOf i) b))).done = false) ∨
    ((launch (startOf i (acceptClear (opcodeOf i) b))).busy = false ∧
      (launch (startOf i (acceptClear (opcodeOf i) b))).done = true) := by
  have hs : (startOf i (acceptClear (opcodeOf i) b)).busy = false := startOf_busy i (by simp [hb])
  rcases launch_cases (startOf i (acceptClear (opcodeOf i) b)) with ⟨h, h'⟩ | ⟨_, _, h⟩ | ⟨hd, _, h⟩
  · exact .inr ⟨by rw [h', hs], by rw [h', h]⟩
  · exact .inr (by simp [h])
  · exact .inl (by simp [h, hd])

end Sys2Proof.Machine
end

