-- ==== Sys2Proof/Laws/Engine.lean ====
section
/-!
SUPPORT. What the engine's turn can do, and what each beat does to the block and to the queues.
-/

namespace Sys2Proof.Machine

/-- What the engine's turn can answer: nothing changes (idle, in reset, or waiting), a beat of the running command, or
the fault of a running engine that has no command (R45, R51, R72). -/
theorem engineTurn_cases {sw : Nat} (s : State sw) :
    engineTurn s = .next s ∨
    (∃ i b q, s.rst = false ∧ s.block.busy = true ∧ s.block.w.op = opcodeOf i ∧
      beatOf i s.block s.streams = some (b, q) ∧ engineTurn s = .next ((s.withBlock b).withStreams q)) ∨
    (s.rst = false ∧ s.block.busy = true ∧ opcodeInstr s.block.w.op = none ∧
      engineTurn s = .fault (.noRunningCommand s.block.w.op)) := by
  unfold engineTurn
  cases hr : s.rst
  · cases hb : s.block.busy
    · left; simp
    · cases ho : opcodeInstr s.block.w.op with
      | none => right; right; simp
      | some i =>
        have hop := (opcodeInstr_eq_some_iff _ _).mp ho
        cases hq : beatOf i s.block s.streams with
        | none => left; simp [hq]
        | some r => right; left; exact ⟨i, r.1, r.2, rfl, rfl, hop, hq, by simp [hq]⟩
  · left; simp

/-- The engine's turn in a running command is the command's beat, or nothing while the beat is not enabled (R45, R72). -/
theorem engineTurn_running {sw : Nat} {s : State sw} {i : Instr} (hr : s.rst = false) (hb : s.block.busy = true)
    (ho : s.block.w.op = opcodeOf i) :
    engineTurn s = match beatOf i s.block s.streams with
      | none => .next s
      | some (b, q) => .next ((s.withBlock b).withStreams q) := by
  cases h : beatOf i s.block s.streams <;> simp [engineTurn, hr, hb, ho, h]

/-- A beat is enabled in a running command exactly when its items are present (R45). -/
theorem beatEnabled_running {sw : Nat} {s : State sw} {i : Instr} (hr : s.rst = false) (hb : s.block.busy = true)
    (ho : s.block.w.op = opcodeOf i) : beatEnabled s = (beatOf i s.block s.streams).isSome := by
  simp [beatEnabled, hr, hb, ho]

/-- An enabled beat is a beat of a running command (R45, R72). -/
theorem beatEnabled_cases {sw : Nat} {s : State sw} (h : beatEnabled s = true) :
    ∃ i b q, s.rst = false ∧ s.block.busy = true ∧ s.block.w.op = opcodeOf i ∧
      beatOf i s.block s.streams = some (b, q) := by
  unfold beatEnabled at h
  cases hr : s.rst <;> cases hb : s.block.busy <;> cases ho : opcodeInstr s.block.w.op <;> simp [hr, hb, ho] at h
  rename_i i
  obtain ⟨r, hq⟩ := Option.isSome_iff_exists.mp h
  exact ⟨i, r.1, r.2, rfl, rfl, (opcodeInstr_eq_some_iff _ _).mp ho, hq⟩

/-- What the framer's bit can be (R80, R88). -/
theorem framerBit_cases (b : Block) (pIn : List Byte) :
    (b.pos.toNat < 32 ∧ framerBit b pIn = some (b.w.len.getLsbD b.pos.toNat, b, pIn)) ∨
    (32 ≤ b.pos.toNat ∧ (b.pos.toNat - 32) % 8 = 0 ∧ pIn = [] ∧ framerBit b pIn = none) ∨
    (∃ x rest, 32 ≤ b.pos.toNat ∧ (b.pos.toNat - 32) % 8 = 0 ∧ pIn = x :: rest ∧
      framerBit b pIn = some (x.getLsbD 0, { b with w := { b.w with byteSr := x } }, rest)) ∨
    (32 ≤ b.pos.toNat ∧ (b.pos.toNat - 32) % 8 ≠ 0 ∧
      framerBit b pIn = some (b.w.byteSr.getLsbD ((b.pos.toNat - 32) % 8), b, pIn)) := by
  unfold framerBit
  by_cases h : b.pos.toNat < 32
  · exact .inl ⟨h, by simp [h]⟩
  · have h' : 32 ≤ b.pos.toNat := by omega
    by_cases hm : (b.pos.toNat - 32) % 8 = 0
    · cases pIn with
      | nil => exact .inr (.inl ⟨h', hm, rfl, by simp [h, hm]⟩)
      | cons x rest => exact .inr (.inr (.inl ⟨x, rest, h', hm, rfl, by simp [h, hm]⟩))
    · exact .inr (.inr (.inr ⟨h', hm, by simp [h, hm]⟩))

/-- What the length check can do (R100). -/
theorem lengthCheck_cases (b : Block) :
    (b.w.n < framedCount b.w.lenSr ∧ lengthCheck b =
      fail .truncatedWatermark (framedCount b.w.lenSr) b.w.n { b with decodedLen := b.w.lenSr }) ∨
    (framedCount b.w.lenSr ≤ b.w.n ∧ b.w.lenSr = 0#32 ∧
      lengthCheck b = complete .noError { b with decodedLen := b.w.lenSr }) ∨
    (framedCount b.w.lenSr ≤ b.w.n ∧ b.w.lenSr ≠ 0#32 ∧
      lengthCheck b = { b with decodedLen := b.w.lenSr, w := { b.w with total := framedCount b.w.lenSr } }) := by
  unfold lengthCheck
  by_cases h : b.w.n < framedCount b.w.lenSr
  · exact .inl ⟨h, by simp [h]⟩
  · have h' := BitVec.not_lt.mp h
    by_cases h0 : b.w.lenSr = 0#32
    · exact .inr (.inl ⟨h', h0, by simp only [if_neg h, if_pos h0]⟩)
    · exact .inr (.inr ⟨h', h0, by simp only [if_neg h, if_neg h0]⟩)

/-- The framer's bit changes `w.byte_sr` at most, and takes at most one byte, the head of `P_IN` (R80, R88). -/
theorem framerBit_some {b b' : Block} {pIn rest : List Byte} {bit : Bit} (h : framerBit b pIn = some (bit, b', rest)) :
    ∃ byteSr took, b' = { b with w := { b.w with byteSr := byteSr } } ∧ pIn = took ++ rest ∧ took.length ≤ 1 := by
  rcases framerBit_cases b pIn with ⟨_, h'⟩ | ⟨_, _, _, h'⟩ | ⟨x, r, _, _, hp, h'⟩ | ⟨_, _, h'⟩ <;> rw [h'] at h <;> cases h
  · exact ⟨_, [], rfl, by simp, by simp⟩
  · exact ⟨x, [x], rfl, by simp [hp], by simp⟩
  · exact ⟨_, [], rfl, by simp, by simp⟩

/-- What a FRAME beat does (R80): only `w.byte_sr` and the end of the beat, at most one byte taken, one bit given. -/
theorem beatFrame_some {sw : Nat} {b b' : Block} {q q' : Streams sw} (h : beatFrame b q = some (b', q')) :
    ∃ byteSr took rest bit, b' = endBeat { b with w := { b.w with byteSr := byteSr } } ∧
      q.pIn = took ++ rest ∧ took.length ≤ 1 ∧ q' = { q with pIn := rest, bOut := q.bOut ++ [bit] } := by
  unfold beatFrame at h
  cases hf : framerBit b q.pIn with
  | none => rw [hf] at h; cases h
  | some r =>
    obtain ⟨bit, b1, rest⟩ := r
    rw [hf] at h; cases h
    obtain ⟨byteSr, took, rfl, hp, hl⟩ := framerBit_some hf
    exact ⟨byteSr, took, rest, bit, rfl, hp, hl, rfl⟩

/-- What an EMBED beat does (R88): only `w.byte_sr` and the end of the beat, one sample taken and one given, at most one
byte taken. -/
theorem beatEmbed_some {sw : Nat} {b b' : Block} {q q' : Streams sw} (h : beatEmbed b q = some (b', q')) :
    ∃ byteSr took pRest s rest o, b' = endBeat { b with w := { b.w with byteSr := byteSr } } ∧
      q.pIn = took ++ pRest ∧ took.length ≤ 1 ∧ q.sIn = s :: rest ∧
      q' = { q with sIn := rest, pIn := pRest, sOut := q.sOut ++ [o] } := by
  unfold beatEmbed at h
  cases hs : q.sIn with
  | nil => rw [hs] at h; cases h
  | cons s rest =>
    rw [hs] at h
    simp only at h
    split at h
    · cases hf : framerBit b q.pIn with
      | none => rw [hf] at h; cases h
      | some r =>
        obtain ⟨bit, b1, pRest⟩ := r
        rw [hf] at h; cases h
        obtain ⟨byteSr, took, rfl, hp, hl⟩ := framerBit_some hf
        exact ⟨byteSr, took, pRest, s, rest, _, rfl, hp, hl, rfl, rfl⟩
    · cases h
      exact ⟨b.w.byteSr, [], q.pIn, s, rest, _, rfl, rfl, by simp, rfl, rfl⟩

/-- What an EMBED_RAW beat does (R92): the end of the beat, one sample taken and one given, at most one bit taken. -/
theorem beatEmbedRaw_some {sw : Nat} {b b' : Block} {q q' : Streams sw} (h : beatEmbedRaw b q = some (b', q')) :
    ∃ took bRest s rest o, b' = endBeat b ∧ q.bIn = took ++ bRest ∧ took.length ≤ 1 ∧ q.sIn = s :: rest ∧
      q' = { q with sIn := rest, bIn := bRest, sOut := q.sOut ++ [o] } := by
  unfold beatEmbedRaw at h
  cases hs : q.sIn with
  | nil => rw [hs] at h; cases h
  | cons s rest =>
    rw [hs] at h
    simp only at h
    split at h
    · cases hb : q.bIn with
      | nil => rw [hb] at h; cases h
      | cons bit bRest =>
        rw [hb] at h; cases h
        exact ⟨[bit], bRest, s, rest, _, rfl, by simp, by simp, rfl, rfl⟩
    · cases h
      exact ⟨[], q.bIn, s, rest, _, rfl, rfl, by simp, rfl, rfl⟩

/-- What an EXTRACT beat does (R99): one sample taken; a length beat, or a payload beat that gives a byte at its bit 7. -/
theorem beatExtract_some {sw : Nat} {b b' : Block} {q q' : Streams sw} (h : beatExtract b q = some (b', q')) :
    ∃ s rest, q.sIn = s :: rest ∧
      ((b.pos.toNat < 32 ∧ b' = lengthBeat b (lsb s) ∧ q' = { q with sIn := rest }) ∨
       (32 ≤ b.pos.toNat ∧ b' = endBeat { b with w := { b.w with byteSr := payloadByte b (lsb s) } } ∧
        q' = { q with sIn := rest,
                      pOut := if (b.pos.toNat - 32) % 8 = 7 then q.pOut ++ [payloadByte b (lsb s)] else q.pOut })) := by
  unfold beatExtract at h
  cases hs : q.sIn with
  | nil => rw [hs] at h; cases h
  | cons s rest =>
    rw [hs] at h
    simp only at h
    split at h
    · rename_i hk; cases h; exact ⟨s, rest, rfl, .inl ⟨hk, rfl, rfl⟩⟩
    · rename_i hk; cases h; exact ⟨s, rest, rfl, .inr ⟨by omega, rfl, rfl⟩⟩

/-- What a length beat does to the block (R99, R100): advance, and at position 31 the three ends of the length check. -/
theorem lengthBeat_cases (b : Block) (bit : Bit) :
    ∃ L, L = writeBit b.w.lenSr b.pos.toNat bit ∧
    ((b.pos.toNat ≠ 31 ∧ lengthBeat b bit = { b with pos := b.pos + 1#64, w := { b.w with lenSr := L } }) ∨
     (b.pos.toNat = 31 ∧ b.w.n < framedCount L ∧ lengthBeat b bit =
        { b with pos := b.pos + 1#64, w := { b.w with lenSr := L }, decodedLen := L, busy := false, done := true,
                 errCode := .truncatedWatermark, errA := framedCount L, errB := b.w.n }) ∨
     (b.pos.toNat = 31 ∧ framedCount L ≤ b.w.n ∧ L = 0#32 ∧ lengthBeat b bit =
        { b with pos := b.pos + 1#64, w := { b.w with lenSr := L }, decodedLen := L, busy := false, done := true,
                 errCode := .noError }) ∨
     (b.pos.toNat = 31 ∧ framedCount L ≤ b.w.n ∧ L ≠ 0#32 ∧ lengthBeat b bit =
        { b with pos := b.pos + 1#64, w := { b.w with lenSr := L, total := framedCount L }, decodedLen := L })) := by
  refine ⟨_, rfl, ?_⟩
  unfold lengthBeat
  generalize writeBit b.w.lenSr b.pos.toNat bit = L
  by_cases h : b.pos.toNat = 31
  · rcases lengthCheck_cases (advance { b with w := { b.w with lenSr := L } }) with ⟨h1, h'⟩ | ⟨h1, h2, h'⟩ | ⟨h1, h2, h'⟩
    · exact .inr (.inl ⟨h, h1, by simp only [h, if_true, h']; rfl⟩)
    · exact .inr (.inr (.inl ⟨h, h1, h2, by simp only [h, if_true, h']; rfl⟩))
    · exact .inr (.inr (.inr ⟨h, h1, h2, by simp only [h, if_true, h']; rfl⟩))
  · exact .inl ⟨h, by simp only [h, if_false]; rfl⟩

/-- Every beat advances `POS` by 1, keeps `IE` and the operand registers, and either keeps the flags and `ERR_CODE` or
leaves the block idle and done (R72). -/
theorem beatOf_flags {sw : Nat} {i : Instr} {b b' : Block} {q q' : Streams sw} (h : beatOf i b q = some (b', q')) :
    b'.pos = b.pos + 1#64 ∧ b'.ie = b.ie ∧ b'.payloadLen = b.payloadLen ∧ b'.sampleCount = b.sampleCount ∧
    b'.bitCount = b.bitCount ∧ ((b'.busy = b.busy ∧ b'.done = b.done ∧ b'.errCode = b.errCode) ∨
      (b'.busy = false ∧ b'.done = true)) := by
  have ends : ∀ byteSr, let c := endBeat { b with w := { b.w with byteSr := byteSr } }
      c.pos = b.pos + 1#64 ∧ c.ie = b.ie ∧ c.payloadLen = b.payloadLen ∧ c.sampleCount = b.sampleCount ∧
      c.bitCount = b.bitCount ∧ ((c.busy = b.busy ∧ c.done = b.done ∧ c.errCode = b.errCode) ∨
        (c.busy = false ∧ c.done = true)) := by
    intro byteSr
    rcases endBeat_cases { b with w := { b.w with byteSr := byteSr } } with ⟨_, h⟩ | ⟨_, h⟩ <;> rw [h] <;> simp
  cases i <;> simp only [beatOf] at h
  · obtain ⟨byteSr, _, _, _, rfl, _⟩ := beatFrame_some h
    exact ends byteSr
  · obtain ⟨byteSr, _, _, _, _, _, rfl, _⟩ := beatEmbed_some h
    exact ends byteSr
  · obtain ⟨_, _, _, _, _, rfl, _⟩ := beatEmbedRaw_some h
    exact ends b.w.byteSr
  · obtain ⟨x, _, _, ⟨_, rfl, _⟩ | ⟨_, rfl, _⟩⟩ := beatExtract_some h
    · obtain ⟨L, _, ⟨_, h⟩ | ⟨_, _, h⟩ | ⟨_, _, _, h⟩ | ⟨_, _, _, h⟩⟩ := lengthBeat_cases b (lsb x) <;> rw [h] <;> simp
    · exact ends _

end Sys2Proof.Machine
end

