-- ==== Sys2Proof/Laws/PerInstr.lean ====
section
/-!
SUPPORT. The family `Encoding`: of every command, as syntax, that it is well formed and that its word is a legal command
word with its own opcode (30_encoding.md R57 to R60).
-/

/-- The command is well formed, its word has reserved bits zero and is legal, and its opcode is the command's own. -/
def Sys2Proof.Laws.Encoding.Statement (i : Sys2Proof.Instr) : Prop :=
  i.wellFormed = true ∧ Sys2Proof.rsvdField (Sys2Proof.encode i) = 0#28 ∧
  Sys2Proof.legalWord (Sys2Proof.encode i) = true ∧
  Sys2Proof.opcodeInstr (Sys2Proof.opcodeField (Sys2Proof.encode i)) = some i

theorem Sys2Proof.Laws.Encoding.frame : Sys2Proof.Laws.Encoding.Statement .frame := ⟨rfl, rfl, rfl, rfl⟩

theorem Sys2Proof.Laws.Encoding.embed : Sys2Proof.Laws.Encoding.Statement .embed := ⟨rfl, rfl, rfl, rfl⟩

theorem Sys2Proof.Laws.Encoding.embedRaw : Sys2Proof.Laws.Encoding.Statement .embedRaw := ⟨rfl, rfl, rfl, rfl⟩

theorem Sys2Proof.Laws.Encoding.extract : Sys2Proof.Laws.Encoding.Statement .extract := ⟨rfl, rfl, rfl, rfl⟩
end

