-- ==== Sys2Proof/Laws/Step.lean ====
section
/-!
SUPPORT. What a step can do. `regWrite_eq` says once what a register write does to the block; `step_cases` says once what
any step does to it.
-/

namespace Sys2Proof.Machine

/-- What a write of `d` to `CMD` does to a block that is not in reset (R67 to R70). -/
def cmdBlock (d : Word) (b : Block) : Block :=
  match decode d with
  | .ok i => acceptCommand (opcodeOf i) (startOf i) b
  | .error _ => acceptIllegal d b

/-- What a write of `d` to index `i` does to a block that is not in reset (R40). -/
def writeBlock (i : Nat) (d : Word) (b : Block) : Block :=
  match i with
  | 1 => ctrlWrite d b
  | 2 => cmdBlock d b
  | 3 => acknowledge d b
  | 4 => { b with payloadLen := withLo b.payloadLen d }
  | 5 => { b with payloadLen := withHi b.payloadLen d }
  | 6 => { b with sampleCount := withLo b.sampleCount d }
  | 7 => { b with sampleCount := withHi b.sampleCount d }
  | 8 => { b with bitCount := withLo b.bitCount d }
  | 9 => { b with bitCount := withHi b.bitCount d }
  | _ => b

/-- Rewriting the block with itself changes nothing. -/
theorem State.onBlock_id {sw : Nat} (s : State sw) : s.onBlock (fun b => b) = s := by
  unfold State.onBlock; split <;> rfl

/-- A write to `CMD` changes the block alone. -/
theorem cmdWrite_eq {sw : Nat} (d : Word) (s : State sw) : cmdWrite d s = .next (s.onBlock (cmdBlock d)) := by
  unfold cmdWrite cmdBlock
  cases decode d with
  | ok i => exact execAt_eq i s
  | error e => rfl

/-- A register write of a legal index answers a next state and changes the block alone (R40). -/
theorem regWrite_eq {sw : Nat} {i : Nat} (h : i < 64) (d : Word) (s : State sw) :
    regWrite i d s = .next (s.onBlock (writeBlock i d)) := by
  have hl : legalIndex i = true := by simp [legalIndex, h]
  unfold regWrite
  rw [if_pos hl]
  unfold writeBlock
  split <;> first | rfl | exact cmdWrite_eq d s | skip
  first
  | rw [State.onBlock_id]
  | split <;> first | exact absurd rfl (by assumption) | rw [State.onBlock_id]

theorem regWrite_illegal {sw : Nat} {i : Nat} (h : 64 ≤ i) (d : Word) (s : State sw) :
    regWrite i d s = .refused (.indexOutOfRange i) := by
  have hl : legalIndex i = false := by simp [legalIndex, h]
  simp [regWrite, hl]

theorem regRead_eq {sw : Nat} {i : Nat} (h : i < 64) (s : State sw) :
    regRead i s = .next (if s.rst then s else s.withSeen (.reg i (readWord sw s.block i))) := by
  have hl : legalIndex i = true := by simp [legalIndex, h]
  simp [regRead, hl]

theorem regRead_illegal {sw : Nat} {i : Nat} (h : 64 ≤ i) (s : State sw) : regRead i s = .refused (.indexOutOfRange i) := by
  have hl : legalIndex i = false := by simp [legalIndex, h]
  simp [regRead, hl]

/-- A write to `CMD` while the engine is busy (R70). -/
theorem cmdBlock_busy {b : Block} (hb : b.busy = true) (d : Word) : cmdBlock d b = { b with cmdIgnored := true } := by
  unfold cmdBlock
  cases decode d with
  | ok i => exact acceptCommand_busy hb _ _
  | error e => exact acceptIllegal_busy hb d

/-- A write to `CMD` while the engine is idle: a command is started, or the word is illegal (R67 to R69). -/
theorem cmdBlock_idle {b : Block} (hb : b.busy = false) (d : Word) :
    (∃ i, decode d = .ok i ∧ cmdBlock d b = launch (startOf i (acceptClear (opcodeOf i) b))) ∨
    (∃ e, decode d = .error e ∧
      cmdBlock d b = fail .illegalCommand (d.setWidth 64) 0#64 (acceptClear (opcodeField d) b)) := by
  unfold cmdBlock
  cases decode d with
  | ok i => exact .inl ⟨i, rfl, acceptCommand_idle hb _ _⟩
  | error e => exact .inr ⟨e, rfl, acceptIllegal_idle hb d⟩

/-- A write to an index that is not `CTRL`, `CMD` or `STATUS` changes the operand registers at most (R40, R47). -/
theorem writeBlock_operand {i : Nat} (h1 : i ≠ 1) (h2 : i ≠ 2) (h3 : i ≠ 3) (d : Word) (b : Block) :
    writeBlock i d b = { b with
      payloadLen := (writeBlock i d b).payloadLen, sampleCount := (writeBlock i d b).sampleCount,
      bitCount := (writeBlock i d b).bitCount } := by
  unfold writeBlock
  split <;> first | exact absurd rfl h1 | exact absurd rfl h2 | exact absurd rfl h3 | rfl

/-- The next move is a turn of the engine: nothing is pending, or `engine` or `wait` is the first move (log entry 2). -/
abbrev EngineMove {sw : Nat} (agenda : List (Move sw)) : Prop :=
  agenda = [] ∨ ∃ rest, agenda = .engine :: rest ∨ agenda = .wait :: rest

/-- What a step can do to the block: nothing (a read, an offer, a collection, a release, a wait), a beat of the running
command, a register write, or the assertion of reset. -/
inductive StepKind {sw : Nat} (s t : State sw) : Prop where
  | quiet (hb : t.block = s.block) (hr : t.rst = s.rst ∨ t.rst = false)
  | beat (i : Instr) (hr : s.rst = false) (hb : s.block.busy = true) (ho : s.block.w.op = opcodeOf i)
      (hq : beatOf i s.block s.streams = some (t.block, t.streams)) (hr' : t.rst = false)
      (ht : EngineMove s.agenda)
  | write (i : Nat) (d : Word) (rest : List (Move sw)) (hi : i < 64) (ha : s.agenda = .write i d :: rest)
      (hr : s.rst = false) (hb : t.block = writeBlock i d s.block) (hs : t.streams = s.streams) (hr' : t.rst = false)
  | assertReset (rest : List (Move sw)) (ha : s.agenda = .assertReset :: rest) (hb : t.block = Block.reset)
      (hs : t.streams = s.streams) (hr : t.rst = true)

/-- A turn of the engine, from a state that differs from `s` in its agenda at most. -/
theorem stepKind_of_engineTurn {sw : Nat} {s s' t : State sw} (hb : s'.block = s.block) (hs : s'.streams = s.streams)
    (hr : s'.rst = s.rst) (ht : EngineMove s.agenda) (h : engineTurn s' = .next t) : StepKind s t := by
  rcases engineTurn_cases s' with h' | ⟨i, b, q, h1, h2, h3, h4, h'⟩ | ⟨_, _, _, h'⟩
  · rw [h'] at h; cases h; exact .quiet hb (.inl hr)
  · rw [h'] at h; cases h
    rw [hb] at h2 h3; rw [hb, hs] at h4; rw [hr] at h1
    exact .beat i h1 h2 h3 h4 (by simpa [hr] using h1) ht
  · rw [h'] at h; cases h

/-- Every step that answers a next state is of one of these kinds, at every sample width. -/
theorem nextMove_cases {sw : Nat} {s t : State sw} (h : nextMove s = .next t) : StepKind s t := by
  unfold nextMove at h
  cases ha : s.agenda with
  | nil => rw [ha] at h; exact stepKind_of_engineTurn rfl rfl rfl (.inl ha) h
  | cons m rest =>
    rw [ha] at h
    cases m with
    | engine => exact stepKind_of_engineTurn (s' := s.withAgenda rest) rfl rfl rfl (.inr ⟨rest, .inl ha⟩) h
    | read i =>
      simp only [runMove] at h
      by_cases hi : i < 64
      · rw [regRead_eq hi] at h
        cases h; split <;> exact .quiet rfl (.inl rfl)
      · rw [regRead_illegal (by omega)] at h; cases h
    | write i d =>
      simp only [runMove] at h
      by_cases hi : i < 64
      · rw [regWrite_eq hi] at h
        cases h
        cases hr : s.rst
        · exact .write i d rest hi ha hr (by simp [State.onBlock_block, hr]) (by simp) (by simp [hr])
        · rw [State.onBlock_asserted (by simpa using hr)]; exact .quiet rfl (.inl rfl)
      · rw [regWrite_illegal (by omega)] at h; cases h
    | offerS v => cases h; exact .quiet rfl (.inl rfl)
    | offerP v => cases h; exact .quiet rfl (.inl rfl)
    | offerB v => cases h; exact .quiet rfl (.inl rfl)
    | collectS => cases h; unfold collectSample; split <;> exact .quiet rfl (.inl rfl)
    | collectP => cases h; unfold collectByte; split <;> exact .quiet rfl (.inl rfl)
    | collectB => cases h; unfold collectBit; split <;> exact .quiet rfl (.inl rfl)
    | wait =>
      simp only [runMove, waitEngine] at h
      split at h
      · exact stepKind_of_engineTurn
          (s' := (s.withAgenda rest).withAgenda (.wait :: (s.withAgenda rest).agenda)) rfl rfl rfl
          (.inr ⟨rest, .inr ha⟩) h
      · cases h; exact .quiet rfl (.inl rfl)
    | waitDone =>
      simp only [runMove, pollDone] at h
      split at h <;>
      · rw [regRead_eq (by omega)] at h
        cases h; split <;> exact .quiet rfl (.inl rfl)
    | assertReset => cases h; exact .assertReset rest ha rfl rfl rfl
    | releaseReset => cases h; exact .quiet rfl (.inr rfl)

/-- Every step of this hardware's machine that answers a next state is of one of these kinds. -/
theorem step_cases {s t : State} (h : step s = .next t) : StepKind s t := nextMove_cases h

/-- This hardware's machine is the one that takes `SAMPLE_W = 16` (R8, R20). -/
theorem core_eq_machineAt : Sys2Proof.core = machineAt Config.sampleW := rfl

end Sys2Proof.Machine
end

