-- ==== Sys2Proof/Tests/Slice0.lean ====
section
/-!
SUPPORT. The model's own tests. First the smoke test of WellFormed and the command words written out bit by bit; then
single steps, whose expected results are the spec's own vectors (95_test_vectors.md, named in each docstring) or the
examples in its rules; then, for each obligation with premises, a witness that meets them, clause by clause.
-/

namespace Sys2Proof.Tests

open Sys2Proof Sys2Proof.Machine

/-! ## Well-formedness and decoding -/

/-- Each check of `legalWord` refuses a word (R59): a reserved bit at either end, opcode 0, opcodes past 4. -/
theorem test_illegal_words_refused :
    legalWord 0x00000011#32 = false ∧ legalWord 0x80000001#32 = false ∧ legalWord 0x00000000#32 = false ∧
    legalWord 0x00000005#32 = false ∧ legalWord 0x0000000F#32 = false ∧ legalWord 0x00000004#32 = true := by decide

/-- The index check refuses 64 (R41). -/
theorem test_index_64_refused : legalIndex 64 = false ∧ legalIndex 63 = true := by decide

/-- R57, R58: `OPCODE` in bits 3:0 and `RSVD = 0`, each word written out bit by bit. -/
theorem test_decode_frame : decode 0b00000000000000000000000000000001#32 = .ok .frame := by decide
theorem test_decode_embed : decode 0b00000000000000000000000000000010#32 = .ok .embed := by decide
theorem test_decode_embed_raw : decode 0b00000000000000000000000000000011#32 = .ok .embedRaw := by decide
theorem test_decode_extract : decode 0b00000000000000000000000000000100#32 = .ok .extract := by decide

/-- R59, R69: a legal opcode under a reserved bit is no command. -/
theorem test_decode_reserved : decode 0b00000000000000000000000000010010#32 = .error .reservedBitsSet := by decide

/-- The opcode table's word of a row decodes and runs as the first step after reset. -/
theorem test_table_word_runs :
    decodeTableWord 32 3 = some .embedRaw ∧ step (State.reset.withFetchWord 32 3) = exec .embedRaw State.reset :=
  ⟨by decide, rfl⟩

/-! ## States for the tests -/

/-- The state an outcome gives, for a test that knows it is a next state. -/
def after (o : Host.Outcome State Fault Refusal) : State :=
  match o with
  | .next t => t
  | .fault _ => State.reset
  | .refused _ => State.reset

/-- An idle block with these operands. -/
def idle (payloadLen sampleCount bitCount : Nat) : State :=
  { State.reset with block := { Block.reset with
      payloadLen := BitVec.ofNat 64 payloadLen, sampleCount := BitVec.ofNat 64 sampleCount,
      bitCount := BitVec.ofNat 64 bitCount } }

/-- A block that runs `i` at `pos`, with these working fields and queues. -/
def running (i : Instr) (pos : Nat) (w : Work) (q : Streams Config.sampleW) : State :=
  { State.reset with
    block := { Block.reset with busy := true, op := opcodeOf i, pos := BitVec.ofNat 64 pos, w := { w with op := opcodeOf i } },
    streams := q }

/-- Working fields with length `len`, `n` samples, `nbits` bits and `total` beats. -/
def work (len n nbits total : Nat) : Work :=
  { Work.reset with len := BitVec.ofNat 32 len, n := BitVec.ofNat 64 n, nbits := BitVec.ofNat 64 nbits,
                    total := BitVec.ofNat 64 total }

/-- Input queues with these items, and nothing given yet. -/
def offered (sIn : List (BitVec 16)) (pIn : List Byte) (bIn : List Bit) : Streams Config.sampleW :=
  { Streams.empty with sIn := sIn, pIn := pIn, bIn := bIn }

/-- The same machine with a move of the host pending. -/
def pending (m : Move) (s : State) : State := { s with agenda := [m] }

/-- The same machine with the reset input asserted. -/
def inReset (s : State) : State := { s with rst := true, block := Block.reset }

/-- A failed EMBED_RAW whose completion is not acknowledged, with `IE` as given (vector RAW3). -/
def failedRaw (ie : Bool) : State :=
  { State.reset with block := { Block.reset with
      ie := ie, done := true, errCode := .capacityExceeded, op := 0x3#4, errA := 3#64, errB := 2#64,
      sampleCount := 2#64, bitCount := 3#64, w := { Work.reset with op := 0x3#4 } } }

/-! ## Single steps against the spec's vectors -/

/-- Vector F4: the largest payload length starts with `w.total = 34359738392`. -/
theorem test_frame_starts :
    statusWord (after (exec .frame (idle 0xFFFFFFFF 0 0))).block = 0x00001001#32 ∧
    (after (exec .frame (idle 0xFFFFFFFF 0 0))).block.w.total.toNat = 34359738392 := by decide

/-- Vector F3: a payload length of 2^32. -/
theorem test_frame_too_large :
    statusWord (after (exec .frame (idle 0x100000000 0 0))).block = 0x00001026#32 ∧
    (after (exec .frame (idle 0x100000000 0 0))).block.errB = 0x00000000FFFFFFFF#64 := by decide

/-- Vectors M6 and M4 (V3, R112): EMBED with too few samples, and PayloadTooLarge before CapacityExceeded. -/
theorem test_embed_fails :
    statusWord (after (exec .embed (idle 2 40 0))).block = 0x00002016#32 ∧
    (after (exec .embed (idle 2 40 0))).block.errA = 48#64 ∧
    statusWord (after (exec .embed (idle 0x100000000 0 0))).block = 0x00002026#32 := by decide

/-- R88's example: at `k = 1` with `w.len = 2` and `s = 0x1234`, the sample given is 0x1235. -/
theorem test_embed_beat :
    (after (step (running .embed 1 (work 2 48 48 48) (offered [0x1234#16] [] [])))).streams.sOut = [0x1235#16] := by decide

/-- Vectors RAW2 and RAW3: no sample completes at acceptance; more bits than samples fail. -/
theorem test_embed_raw_acceptance :
    statusWord (after (exec .embedRaw (idle 0 0 0))).block = 0x00003002#32 ∧
    statusWord (after (exec .embedRaw (idle 0 2 3))).block = 0x00003016#32 := by decide

/-- Vector RAW1's first beat (R92's example): 0xFFFF with bit 0 becomes 0xFFFE. -/
theorem test_embed_raw_beat :
    (after (step (running .embedRaw 0 (work 0 3 2 3) (offered [0xFFFF#16] [] [false])))).streams.sOut = [0xFFFE#16] := by
  decide

/-- Vector X2: EXTRACT of 31 samples. -/
theorem test_extract_too_few :
    statusWord (after (exec .extract (idle 0 31 0))).block = 0x00004046#32 ∧
    (after (exec .extract (idle 0 31 0))).block.errA = 32#64 := by decide

/-- R100's example: the length decodes as 3 with 50 samples, at the beat of `POS = 31`. -/
theorem test_extract_truncated :
    let t := after (step (running .extract 31 { work 0 50 0 32 with lenSr := 3#32 } (offered [0x0000#16] [] [])))
    statusWord t.block = 0x00004036#32 ∧ t.block.errA = 56#64 ∧ t.block.errB = 50#64 ∧ t.block.decodedLen = 3#32 ∧
    t.block.pos = 32#64 := by decide

/-- Vectors K1, K3 and K4: illegal words. -/
theorem test_illegal_words :
    statusWord (after (step (pending (.write 2 0x00000000#32) State.reset))).block = 0x00000056#32 ∧
    statusWord (after (step (pending (.write 2 0x00000012#32) State.reset))).block = 0x00002056#32 ∧
    (after (step (pending (.write 2 0xFFFFFFFF#32) State.reset))).block.errA = 0x00000000FFFFFFFF#64 := by decide

/-- R73's example: after a failed EMBED (vector K5) a write of 0x2 to `STATUS` leaves 0x2014. -/
theorem test_acknowledge :
    statusWord (after (step (pending (.write 3 0x2#32) (after (exec .embed (idle 0 2 0)))))).block = 0x00002014#32 := by
  decide

/-- Vectors K7 and K9: `IRQ` rises with the write that sets `IE`; a soft reset leaves `IE = 0`. -/
theorem test_control_writes :
    irq (after (step (pending (.write 1 0x2#32) (failedRaw false)))).block = true ∧
    (after (step (pending (.write 1 0x3#32) (failedRaw true)))).block = Block.reset := by decide

/-- Vector K10: `INFO`, `CMD` and the reserved indices. -/
theorem test_reads :
    readWord 16 State.reset.block 0 = 0x00000110#32 ∧ readWord 16 State.reset.block 2 = 0#32 ∧
    readWord 16 State.reset.block 17 = 0#32 ∧ readWord 16 State.reset.block 63 = 0#32 := by decide

/-- Program P6: a command word while busy sets `CMD_IGNORED` (`STATUS = 0x3101`). -/
theorem test_busy_word_ignored :
    statusWord (after (step (pending (.write 2 0x4#32) (running .embedRaw 0 (work 0 2 0 2) Streams.empty)))).block =
      0x00003101#32 := by decide

/-- Vectors E5, E6, E7, E9 and E12. -/
theorem test_set_lsb :
    setLsb 0xFFFF#16 false = 0xFFFE#16 ∧ setLsb 0xFFFE#16 true = 0xFFFF#16 ∧ setLsb 0x7FFF#16 true = 0x7FFF#16 ∧
    setLsb 0x8000#16 false = 0x8000#16 ∧ setLsb 0x1234#16 true = 0x1235#16 := by decide

/-- V1: byte 105 has the bits 1,0,0,1,0,1,1,0, least significant first; V2: 105 is read back from samples with those. -/
theorem test_byte_bits :
    byteBits 105#8 = [true, false, false, true, false, true, true, false] ∧ sumBits (byteBits 105#8) = 105 := by decide

/-- R66's examples: `SET64 SAMPLE_COUNT, 48` and `RUN EMBED`; and `SET64` of a read-only pair (R18: `ERR_A` 10 and 11,
`POS` 15 and 16). -/
theorem test_expansions :
    expandAll (sw := 16) [.set64 .sampleCount 48#64, .run .embed] = [.write 6 0x30#32, .write 7 0#32, .write 2 2#32] ∧
    expandAll (sw := 16) [.set64 .errA 1#64, .set64 .pos 0x200000003#64] =
      [.write 10 1#32, .write 11 0#32, .write 15 3#32, .write 16 2#32] := by decide

/-! ## Witnesses of the obligations' premises -/

theorem test_witness_LegalWordsAndTheRest :
    (idle 2 48 0).ready ∧ (∀ i, decode 0x00000012#32 ≠ .ok i) ∧ (∀ i, decode 0x00000000#32 ≠ .ok i) ∧
    (∀ i, decode 0x00000005#32 ≠ .ok i) ∧ (∀ i, decode 0xFFFFFFFF#32 ≠ .ok i) := by
  refine ⟨by decide, ?_, ?_, ?_, ?_⟩ <;> intro i <;> cases i <;> decide

theorem test_witness_StepRunsDecodedCommand :
    ((pending (.write 2 1#32) State.reset).agenda = .write 2 1#32 :: [] ∧ decode 1#32 = .ok .frame) ∧
    decodeTableWord 32 4 = some .extract := by decide

theorem test_witness_FrameStarts :
    ((idle 0 0 0).ready ∧ (idle 0 0 0).block.payloadLen.toNat < 2 ^ 32) ∧
    ((idle 0xFFFFFFFF 0 0).ready ∧ (idle 0xFFFFFFFF 0 0).block.payloadLen.toNat < 2 ^ 32) := by decide

theorem test_witness_EmbedStarts :
    (idle 2 48 0).ready ∧ (idle 2 48 0).block.payloadLen.toNat < 2 ^ 32 ∧
    32 + 8 * (idle 2 48 0).block.payloadLen.toNat ≤ (idle 2 48 0).block.sampleCount.toNat := by decide

theorem test_witness_EmbedRawStartsOrCompletes :
    ((idle 0 0 0).ready ∧ (idle 0 0 0).block.bitCount.toNat ≤ (idle 0 0 0).block.sampleCount.toNat) ∧
    ((idle 0 3 3).ready ∧ (idle 0 3 3).block.bitCount.toNat ≤ (idle 0 3 3).block.sampleCount.toNat) := by decide

theorem test_witness_ExtractStarts : (idle 0 32 0).ready ∧ 32 ≤ (idle 0 32 0).block.sampleCount.toNat := by decide

theorem test_witness_PayloadTooLargeAtAcceptance :
    (idle 0x100000000 0 0).ready ∧ (Instr.frame = .frame ∨ Instr.frame = .embed) ∧
    (Instr.embed = .frame ∨ Instr.embed = .embed) ∧ 2 ^ 32 ≤ (idle 0x100000000 0 0).block.payloadLen.toNat := by decide

theorem test_witness_CapacityExceededAtAcceptance :
    ((idle 0 31 0).ready ∧ (idle 0 31 0).block.payloadLen.toNat < 2 ^ 32 ∧
      (idle 0 31 0).block.sampleCount.toNat < 32 + 8 * (idle 0 31 0).block.payloadLen.toNat) ∧
    ((idle 0 2 3).ready ∧ (idle 0 2 3).block.sampleCount.toNat < (idle 0 2 3).block.bitCount.toNat) := by decide

theorem test_witness_InsufficientSamplesAtAcceptance :
    (idle 0 31 0).ready ∧ (idle 0 31 0).block.sampleCount.toNat < 32 := by decide

theorem test_witness_IllegalWordAtAcceptance :
    (pending (.write 2 5#32) (idle 2 48 0)).ready ∧ (pending (.write 2 5#32) (idle 2 48 0)).agenda = [.write 2 5#32] ∧
    decode 5#32 = .error (.noSuchOpcode 5#4) := by decide

theorem test_witness_CommandWriteWhileBusyIgnored :
    let s := pending (.write 2 4#32) (running .frame 3 (work 0 0 0 32) Streams.empty)
    s.rst = false ∧ s.block.busy = true ∧ s.agenda = [.write 2 4#32] := by decide

theorem test_witness_CommandWordFrame : (inReset (idle 1 1 1)).rst = true := by decide

theorem test_witness_AcceptanceForgetsEarlierCommands :
    let s := idle 0 2 3
    let s' := { failedRaw false with streams := offered [1#16] [] [] }
    s.ready ∧ s'.ready ∧ s'.block.ie = s.block.ie ∧ s'.block.payloadLen = s.block.payloadLen ∧
    s'.block.sampleCount = s.block.sampleCount ∧ s'.block.bitCount = s.block.bitCount ∧ s'.block ≠ s.block := by decide

theorem test_witness_RejectedCommandFailsAgain :
    (idle 0 31 0).ready ∧ ∃ t, exec .extract (idle 0 31 0) = .next t ∧ t.block.done = true := ⟨by decide, _, rfl, rfl⟩

theorem test_witness_BeatEnd :
    (∃ b : Block, b.pos + 1#64 = b.w.total) ∧ (∃ b : Block, b.pos + 1#64 ≠ b.w.total) :=
  ⟨⟨(running .frame 31 (work 0 0 0 32) Streams.empty).block, by decide⟩,
   ⟨(running .frame 30 (work 0 0 0 32) Streams.empty).block, by decide⟩⟩

/-- The FRAME beat: a length bit at 31, a new byte at 32 (missing, then present), a later bit at 39. -/
theorem test_witness_FrameBeat :
    let s1 := running .frame 31 (work 1 0 0 40) Streams.empty
    let s2 := running .frame 32 (work 1 0 0 40) Streams.empty
    let s3 := running .frame 32 (work 1 0 0 40) (offered [] [0xA5#8] [])
    let s4 := running .frame 39 (work 1 0 0 40) Streams.empty
    (s1.running .frame ∧ s1.block.pos.toNat < 32) ∧
    (s2.running .frame ∧ 32 ≤ s2.block.pos.toNat ∧ (s2.block.pos.toNat - 32) % 8 = 0 ∧ s2.streams.pIn = []) ∧
    (s3.running .frame ∧ 32 ≤ s3.block.pos.toNat ∧ (s3.block.pos.toNat - 32) % 8 = 0 ∧ s3.streams.pIn = [0xA5#8]) ∧
    (s4.running .frame ∧ 32 ≤ s4.block.pos.toNat ∧ (s4.block.pos.toNat - 32) % 8 ≠ 0) := by decide

/-- The EMBED beat: no sample; pass-through at `nbits`; a length bit at 31; a new byte at 32 (missing, then present); a later
bit at 39. -/
theorem test_witness_EmbedBeat :
    let s0 := running .embed 31 (work 1 41 40 41) Streams.empty
    let s1 := running .embed 40 (work 1 41 40 41) (offered [7#16] [] [])
    let s2 := running .embed 31 (work 1 41 40 41) (offered [7#16] [] [])
    let s3 := running .embed 32 (work 1 41 40 41) (offered [7#16] [] [])
    let s4 := running .embed 32 (work 1 41 40 41) (offered [7#16] [0xA5#8] [])
    let s5 := running .embed 39 (work 1 41 40 41) (offered [7#16] [] [])
    (s0.running .embed ∧ s0.streams.sIn = []) ∧
    (s1.running .embed ∧ s1.streams.sIn = [7#16] ∧ s1.block.w.nbits.toNat ≤ s1.block.pos.toNat) ∧
    (s2.running .embed ∧ s2.streams.sIn = [7#16] ∧ s2.block.pos.toNat < s2.block.w.nbits.toNat ∧
      s2.block.pos.toNat < 32) ∧
    (s3.running .embed ∧ s3.streams.sIn = [7#16] ∧ s3.block.pos.toNat < s3.block.w.nbits.toNat ∧
      32 ≤ s3.block.pos.toNat ∧ (s3.block.pos.toNat - 32) % 8 = 0 ∧ s3.streams.pIn = []) ∧
    (s4.running .embed ∧ s4.streams.sIn = [7#16] ∧ s4.block.pos.toNat < s4.block.w.nbits.toNat ∧
      32 ≤ s4.block.pos.toNat ∧ (s4.block.pos.toNat - 32) % 8 = 0 ∧ s4.streams.pIn = [0xA5#8]) ∧
    (s5.running .embed ∧ s5.streams.sIn = [7#16] ∧ s5.block.pos.toNat < s5.block.w.nbits.toNat ∧
      32 ≤ s5.block.pos.toNat ∧ (s5.block.pos.toNat - 32) % 8 ≠ 0) := by decide

/-- The EMBED_RAW beat: no sample; pass-through at `nbits`; a bit at `nbits - 1` (missing, then present). -/
theorem test_witness_EmbedRawBeat :
    let s0 := running .embedRaw 0 (work 0 3 2 3) Streams.empty
    let s1 := running .embedRaw 2 (work 0 3 2 3) (offered [7#16] [] [])
    let s2 := running .embedRaw 1 (work 0 3 2 3) (offered [7#16] [] [])
    let s3 := running .embedRaw 1 (work 0 3 2 3) (offered [7#16] [] [true])
    (s0.running .embedRaw ∧ s0.streams.sIn = []) ∧
    (s1.running .embedRaw ∧ s1.streams.sIn = [7#16] ∧ s1.block.w.nbits.toNat ≤ s1.block.pos.toNat) ∧
    (s2.running .embedRaw ∧ s2.streams.sIn = [7#16] ∧ s2.block.pos.toNat < s2.block.w.nbits.toNat ∧
      s2.streams.bIn = []) ∧
    (s3.running .embedRaw ∧ s3.streams.sIn = [7#16] ∧ s3.block.pos.toNat < s3.block.w.nbits.toNat ∧
      s3.streams.bIn = [true]) := by decide

theorem test_witness_ExtractLengthBeat :
    let s0 := running .extract 0 (work 0 50 0 32) Streams.empty
    let s1 := running .extract 30 (work 0 50 0 32) (offered [1#16] [] [])
    let s2 := running .extract 31 (work 0 50 0 32) (offered [1#16] [] [])
    (s0.running .extract ∧ s0.block.pos.toNat < 32 ∧ s0.streams.sIn = []) ∧
    (s1.running .extract ∧ s1.block.pos.toNat < 32 ∧ s1.streams.sIn = [1#16]) ∧
    (s2.running .extract ∧ s2.block.pos.toNat < 32 ∧ s2.streams.sIn = [1#16]) := by decide

theorem test_witness_ExtractPayloadBeat :
    let s0 := running .extract 32 (work 0 50 0 40) Streams.empty
    let s1 := running .extract 39 (work 0 50 0 40) (offered [1#16] [] [])
    (s0.running .extract ∧ 32 ≤ s0.block.pos.toNat ∧ s0.streams.sIn = []) ∧
    (s1.running .extract ∧ 32 ≤ s1.block.pos.toNat ∧ s1.streams.sIn = [1#16]) := by decide

/-- Each command running, with its beat not enabled. -/
theorem test_witness_BeatWaitsExactlyForMissingInput :
    let sf := running .frame 32 (work 1 0 0 40) Streams.empty
    let se := running .embed 32 (work 1 41 40 41) (offered [7#16] [] [])
    let sr := running .embedRaw 1 (work 0 3 2 3) (offered [7#16] [] [])
    let sx := running .extract 0 (work 0 50 0 32) Streams.empty
    (sf.running .frame ∧ beatEnabled sf = false) ∧ (se.running .embed ∧ beatEnabled se = false) ∧
    (sr.running .embedRaw ∧ beatEnabled sr = false) ∧ (sx.running .extract ∧ beatEnabled sx = false) := by decide

theorem test_witness_BeatMovesAtMostOneItemPerQueue :
    ∃ t, engineTurn (running .embed 32 (work 1 41 40 41) (offered [7#16] [0xA5#8] [])) = .next t := ⟨_, rfl⟩

theorem test_witness_BeatFrame :
    (∃ t, (running .frame 31 (work 1 0 0 40) Streams.empty).running .frame ∧
      engineTurn (running .frame 31 (work 1 0 0 40) Streams.empty) = .next t) ∧
    (∃ t, (running .embed 40 (work 1 41 40 41) (offered [7#16] [] [])).running .embed ∧
      engineTurn (running .embed 40 (work 1 41 40 41) (offered [7#16] [] [])) = .next t) ∧
    (∃ t, (running .embedRaw 1 (work 0 3 2 3) (offered [7#16] [] [true])).running .embedRaw ∧
      engineTurn (running .embedRaw 1 (work 0 3 2 3) (offered [7#16] [] [true])) = .next t) ∧
    (∃ t, (running .extract 39 (work 0 50 0 40) (offered [1#16] [] [])).running .extract ∧
      engineTurn (running .extract 39 (work 0 50 0 40) (offered [1#16] [] [])) = .next t) :=
  ⟨⟨_, by decide, rfl⟩, ⟨_, by decide, rfl⟩, ⟨_, by decide, rfl⟩, ⟨_, by decide, rfl⟩⟩

/-- An error at acceptance, and TruncatedWatermark at the beat of `POS = 31`. -/
theorem test_witness_NoOutputInTheStepOfAnError :
    (∃ t, (pending (.write 2 4#32) (idle 0 31 0)).inv ∧ step (pending (.write 2 4#32) (idle 0 31 0)) = .next t ∧
      t.block.errCode = .insufficientSamples) ∧
    (∃ t, (running .extract 31 { work 0 50 0 32 with lenSr := 3#32 } (offered [0#16] [] [])).inv ∧
      step (running .extract 31 { work 0 50 0 32 with lenSr := 3#32 } (offered [0#16] [] [])) = .next t ∧
      t.block.errCode = .truncatedWatermark) :=
  ⟨⟨_, ⟨by decide, by decide, by decide, by decide⟩, rfl, rfl⟩,
   ⟨_, ⟨by decide, by decide, by decide, by decide⟩, rfl, rfl⟩⟩

theorem test_witness_ReadReturnsRegisterMap :
    (∀ i ∈ [0, 1, 2, 3, 4, 5, 16, 17, 63], i < 64 ∧ (pending (.read i) State.reset).rst = false ∧
      (pending (.read i) State.reset).agenda = [.read i]) := by decide

theorem test_witness_InfoWordForEveryWidth : (1 ≤ 1 ∧ 1 ≤ 255) ∧ (1 ≤ 255 ∧ 255 ≤ 255) := by decide

theorem test_witness_OperandWriteReadsBack :
    (running .frame 3 (work 0 0 0 32) Streams.empty).rst = false ∧ (4 ≤ 4 ∧ 4 ≤ 9) ∧ (4 ≤ 9 ∧ 9 ≤ 9) := by decide

theorem test_witness_WritesToReadOnlyAndReservedIgnored :
    ∀ i ∈ [0, 10, 16, 17, 63], (i = 0 ∨ (10 ≤ i ∧ i ≤ 63)) ∧
      (pending (.write i 5#32) State.reset).agenda = [.write i 5#32] := by decide

theorem test_witness_StatusWriteAcknowledges :
    let s := pending (.write 3 0x102#32) (failedRaw true)
    s.rst = false ∧ s.agenda = [.write 3 0x102#32] := by decide

theorem test_witness_ControlWrite :
    ∀ d ∈ [0#32, 1#32, 2#32, 3#32],
      (pending (.write 1 d) (failedRaw true)).rst = false ∧ (pending (.write 1 d) (failedRaw true)).agenda = [.write 1 d] :=
  fun _ _ => ⟨rfl, rfl⟩

theorem test_witness_OnlyIndexOutOfRangeRefused :
    64 ≤ 64 ∧ (pending (.read 64) State.reset).agenda = [.read 64] ∧
    (pending (.write 64 0#32) State.reset).agenda = [.write 64 0#32] ∧
    step (pending (.read 64) State.reset) = .refused (.indexOutOfRange 64) := ⟨by decide, rfl, rfl, rfl⟩

theorem test_witness_ResetAbandonsRunningCommand :
    let s := running .frame 3 (work 0 0 0 32) Streams.empty
    (pending .assertReset s).agenda = [.assertReset] ∧
    ((pending (.write 1 1#32) s).rst = false ∧ (1#32).getLsbD 0 = true ∧
      (pending (.write 1 1#32) s).agenda = [.write 1 1#32]) := by decide

theorem test_witness_AssertedResetBlocksAccessesAndBeats :
    (inReset State.reset).rst = true ∧ (pending .engine (inReset State.reset)).agenda = [.engine] ∧
    (pending .wait (inReset State.reset)).agenda = [.wait] ∧
    (63 < 64 ∧ (pending (.read 63) (inReset State.reset)).agenda = [.read 63]) ∧
    (2 < 64 ∧ (pending (.write 2 1#32) (inReset State.reset)).agenda = [.write 2 1#32]) := by decide

theorem test_witness_OffersAppendAndCollectionsTakeHeads :
    let q : Streams Config.sampleW := { Streams.empty with sOut := [1#16], pOut := [2#8], bOut := [true] }
    let s : State := { State.reset with streams := q }
    (pending (.offerS 1#16) s).agenda = [.offerS 1#16] ∧ (pending (.offerP 1#8) s).agenda = [.offerP 1#8] ∧
    (pending (.offerB true) s).agenda = [.offerB true] ∧
    ((pending .collectS s).agenda = [.collectS] ∧ (pending .collectS s).streams.sOut = [1#16]) ∧
    ((pending .collectP s).agenda = [.collectP] ∧ (pending .collectP s).streams.pOut = [2#8]) ∧
    ((pending .collectB s).agenda = [.collectB] ∧ (pending .collectB s).streams.bOut = [true]) ∧
    (pending .collectB (inReset s)).agenda = [.collectB] := by decide

/-- `IRQ` rises at a completion and at the write that sets `IE`. -/
theorem test_witness_InterruptEdges_rise :
    (∃ t, step (pending (.write 2 3#32) { idle 0 0 0 with block := { Block.reset with ie := true } }) = .next t ∧
      irq Block.reset = false ∧ irq t.block = true) ∧
    (∃ t, step (pending (.write 1 2#32) (failedRaw false)) = .next t ∧ irq (failedRaw false).block = false ∧
      irq t.block = true) := ⟨⟨_, rfl, rfl, rfl⟩, ⟨_, rfl, rfl, rfl⟩⟩

/-- `IRQ` falls at the acknowledgement, at acceptance, at a `CTRL` write and at reset. -/
theorem test_witness_InterruptEdges_fall :
    irq (failedRaw true).block = true ∧
    (∃ t, step (pending (.write 3 2#32) (failedRaw true)) = .next t ∧ irq t.block = false) ∧
    (∃ t, step (pending (.write 2 1#32) (failedRaw true)) = .next t ∧ irq t.block = false) ∧
    (∃ t, step (pending (.write 1 0#32) (failedRaw true)) = .next t ∧ irq t.block = false) ∧
    (∃ t, step (pending .assertReset (failedRaw true)) = .next t ∧ irq t.block = false) :=
  ⟨rfl, ⟨_, rfl, rfl⟩, ⟨_, rfl, rfl⟩, ⟨_, rfl, rfl⟩, ⟨_, rfl, rfl⟩⟩

theorem test_witness_SetLsbReplacesBitZeroOnly : (1 ≤ 1) ∧ (1 ≤ 16) := by decide

theorem test_witness_SetLsbEqualsBothSourceFormulas : (1 ≤ 1) ∧ (1 ≤ 16) := by decide

theorem test_witness_SetLsbNumericEffect : (2 ≤ 2) ∧ (2 ≤ 16) := by decide

theorem test_witness_FrameIsTheFramebits : ([] : List Byte).length < 2 ^ 32 ∧ [72#8, 105#8].length < 2 ^ 32 := by decide

theorem test_witness_EmbedChangesOnlyLeadingBitZeros :
    1 ≤ 16 ∧ [true].length ≤ [5#16, 6#16].length ∧ [5#16, 6#16][0]? = some 5#16 ∧ [5#16, 6#16][1]? = some 6#16 ∧
    [true][0]? = some true ∧ [true].length ≤ 1 := by decide

theorem test_witness_ExtractOfEmbedOfFrame :
    1 ≤ 16 ∧ ∃ bits out, frame [] = .ok bits ∧ embed (List.replicate 32 0xFFFF#16) bits = .ok out :=
  ⟨by decide, _, _, rfl, rfl⟩

theorem test_witness_StepKeepsInvariant :
    (running .extract 31 (work 0 50 0 32) (offered [1#16] [] [])).inv ∧
    ∃ t, step (running .extract 31 (work 0 50 0 32) (offered [1#16] [] [])) = .next t :=
  ⟨⟨by decide, by decide, by decide, by decide⟩, _, rfl⟩

theorem test_witness_NoFaultUnderInvariant : (running .frame 31 (work 0 0 0 32) Streams.empty).inv :=
  ⟨by decide, by decide, by decide, by decide⟩

/-- A beat with nothing pending, a beat of a `WAIT`, and a soft reset. -/
theorem test_witness_PositionMovesByOneOrIsCleared :
    (∃ t, step (running .frame 31 (work 0 0 0 32) Streams.empty) = .next t ∧ t.block.pos = 32#64) ∧
    (∃ t, step (pending .wait (running .frame 31 (work 0 0 0 32) Streams.empty)) = .next t ∧ t.block.pos = 32#64) ∧
    (∃ t, step (pending (.write 1 1#32) (running .frame 31 (work 0 0 0 32) Streams.empty)) = .next t ∧
      t.block.pos = 0#64) := ⟨⟨_, rfl, rfl⟩, ⟨_, rfl, rfl⟩, ⟨_, rfl, rfl⟩⟩

theorem test_witness_OperandsChangeOnlyByHostWriteOrReset :
    ∃ t, step (pending (.write 4 5#32) State.reset) = .next t ∧
      (∀ rest, (pending (.write 4 5#32) State.reset).agenda ≠ .assertReset :: rest) ∧
      (∀ d rest, (pending (.write 4 5#32) State.reset).agenda = .write 1 d :: rest → d.getLsbD 0 = false) := by
  refine ⟨_, rfl, ?_, ?_⟩
  · intro rest h; cases h
  · intro d rest h; cases h

theorem test_witness_LatchedOperandsFixedWhileRunning :
    ∃ t, step (running .extract 31 (work 0 50 0 32) (offered [0#16] [] [])) = .next t ∧
      (running .extract 31 { work 0 50 0 32 with lenSr := 1#32 } (offered [0#16] [] [])).block.busy = true ∧
      (after (step (running .extract 31 { work 0 50 0 32 with lenSr := 1#32 } (offered [0#16] [] [])))).block.busy = true :=
  ⟨_, rfl, by decide, by decide⟩

theorem test_witness_QuietMovesCommuteWithBeats :
    let q : Streams Config.sampleW :=
      { sIn := [7#16], pIn := [0xA5#8], bIn := [], sOut := [1#16], pOut := [2#8], bOut := [true] }
    let s := running .embed 32 (work 1 41 40 41) q
    beatEnabled s = true ∧ s.quietMove (.offerS 1#16) = true ∧ s.quietMove (.offerP 1#8) = true ∧
    s.quietMove (.offerB true) = true ∧ s.quietMove .collectS = true ∧ s.quietMove .collectP = true ∧
    s.quietMove .collectB = true ∧ s.quietMove (.write 4 1#32) = true ∧ s.quietMove (.write 9 1#32) = true := by decide

theorem test_witness_FrameCommandGivesFrame :
    let s : State := { idle 1 0 0 with streams := offered [] [0xA5#8, 0x3C#8] [] }
    s.ready ∧ [0xA5#8].length < 2 ^ 32 ∧ s.block.payloadLen.toNat = [0xA5#8].length ∧
    s.streams.pIn = [0xA5#8] ++ [0x3C#8] := by decide

theorem test_witness_EmbedCommandGivesEmbedOfFrame :
    let smp := List.replicate 40 0#16
    let s : State := { idle 1 40 0 with streams := offered smp [0xA5#8] [] }
    s.ready ∧ [0xA5#8].length < 2 ^ 32 ∧ s.block.payloadLen.toNat = [0xA5#8].length ∧
    s.block.sampleCount.toNat = smp.length ∧ 32 + 8 * [0xA5#8].length ≤ smp.length ∧
    s.streams.pIn = [0xA5#8] ++ [] ∧ s.streams.sIn = smp ++ [] := by decide

theorem test_witness_EmbedRawCommandGivesEmbed :
    let s : State := { idle 0 3 2 with streams := offered [1#16, 2#16, 3#16] [] [false, true] }
    s.ready ∧ s.block.bitCount.toNat = [false, true].length ∧ s.block.sampleCount.toNat = [1#16, 2#16, 3#16].length ∧
    [false, true].length ≤ [1#16, 2#16, 3#16].length ∧ s.streams.bIn = [false, true] ++ [] ∧
    s.streams.sIn = [1#16, 2#16, 3#16] ++ [] := by decide

/-- EXTRACT that succeeds with an empty payload (vector X3), that is truncated (X5), and that has too few samples (X2). -/
theorem test_witness_ExtractCommandGivesExtract :
    let x3 := List.replicate 32 2#16
    let x5 := 1#16 :: List.replicate 31 0#16
    let x2 := List.replicate 31 0#16
    ((idle 0 32 0).ready ∧ (idle 0 32 0).block.sampleCount.toNat = x3.length ∧ extract x3 = .ok []) ∧
    ((idle 0 32 0).block.sampleCount.toNat = x5.length ∧ extract x5 = .error (.truncatedWatermark 40 32)) ∧
    ((idle 0 31 0).ready ∧ (idle 0 31 0).block.sampleCount.toNat = x2.length ∧
      extract x2 = .error (.insufficientSamples 31)) := by decide

theorem test_witness_ExtractGivesBackWhatEmbedHid :
    let smp := List.replicate 40 0#16
    let s : State := { idle 1 40 0 with streams := offered smp [0xA5#8] [] }
    (s.ready ∧ [0xA5#8].length < 2 ^ 32 ∧ s.block.payloadLen.toNat = [0xA5#8].length ∧
      s.block.sampleCount.toNat = smp.length ∧ 32 + 8 * [0xA5#8].length ≤ smp.length ∧ s.streams.pIn = [0xA5#8] ∧
      s.streams.sIn = smp ∧ s.streams.sOut = []) ∧
    ∀ x : List (BitVec Config.sampleW), ∃ v : State, v.ready ∧ v.block.sampleCount.toNat = smp.length ∧
      v.streams.sIn = x := by
  refine ⟨by decide, fun x => ⟨{ idle 0 40 0 with streams := { Streams.empty with sIn := x } }, ?_⟩⟩
  exact ⟨⟨rfl, rfl⟩, rfl, rfl⟩

theorem test_witness_EmbedIsFrameThenEmbedRaw :
    let smp := List.replicate 40 0#16
    let s : State := { idle 1 40 0 with streams := offered smp [0xA5#8] [] }
    let f : State := { idle 1 0 0 with streams := offered [] [0xA5#8] [] }
    (s.ready ∧ f.ready ∧ [0xA5#8].length < 2 ^ 32 ∧ 32 + 8 * [0xA5#8].length ≤ smp.length ∧
      s.block.payloadLen.toNat = [0xA5#8].length ∧ s.block.sampleCount.toNat = smp.length ∧ s.streams.pIn = [0xA5#8] ∧
      s.streams.sIn = smp ∧ s.streams.sOut = [] ∧ f.block.payloadLen.toNat = [0xA5#8].length ∧
      f.streams.pIn = [0xA5#8] ∧ f.streams.bOut = []) ∧
    (∀ bits : List Bit, ∃ r : State, r.ready ∧ r.block.bitCount.toNat = 32 + 8 * [0xA5#8].length ∧
      r.block.sampleCount.toNat = smp.length ∧ r.streams.sIn = smp ∧ r.streams.sOut = [] ∧ r.streams.bIn = bits) ∧
    ((idle 1 39 0).ready ∧ (idle 0 39 40).ready ∧ (idle 1 39 0).block.payloadLen.toNat < 2 ^ 32 ∧
      (idle 1 39 0).block.sampleCount.toNat < 32 + 8 * (idle 1 39 0).block.payloadLen.toNat ∧
      (idle 0 39 40).block.bitCount.toNat = 32 + 8 * (idle 1 39 0).block.payloadLen.toNat ∧
      (idle 0 39 40).block.sampleCount = (idle 1 39 0).block.sampleCount) := by
  refine ⟨by decide, fun bits => ⟨{ idle 0 40 40 with streams := { Streams.empty with
    sIn := List.replicate 40 0#16, bIn := bits } }, ?_⟩, by decide⟩
  exact ⟨⟨rfl, rfl⟩, rfl, rfl, rfl, rfl, rfl⟩

/-- From 16 bits down to 1 and to 16. -/
theorem test_witness_BeatsAgreeAtEveryWidth : (1 ≤ 1 ∧ 1 ≤ 16) ∧ (1 ≤ 16 ∧ 16 ≤ 16) := by decide

/-- R8 and R20 at another width: an 8-bit machine reads `INFO = 0x0108`, and its EMBED_RAW beat keeps bits 7 to 1. -/
theorem test_width_eight :
    readWord 8 Block.reset 0 = 0x00000108#32 ∧
    (beatEmbedRaw (running .embedRaw 0 (work 0 3 2 3) Streams.empty).block
      ({ Streams.empty with sIn := [0xFF#8], bIn := [false] } : Streams 8)).map (·.2.sOut) = some [0xFE#8] := by decide

end Sys2Proof.Tests
end

section
/-!
The proofs of the encoding family (30_encoding.md): which command words are legal and what the others do (R59), and the
framed bits of a payload by index (R62).
-/

namespace Sys2Proof

/-! ### Legal words (R57 to R59) -/

/-- A word decodes to `i` exactly when its reserved bits are zero and its opcode is that of `i`. -/
theorem decode_eq_ok_iff (d : Word) (i : Instr) :
    decode d = .ok i ↔ rsvdField d = 0#28 ∧ opcodeField d = opcodeOf i := by
  rcases decode_cases d with ⟨j, hd, hr, ho⟩ | ⟨e, hd, hbad⟩
  · rw [hd, ho]
    constructor
    · intro h; cases h; exact ⟨hr, rfl⟩
    · rintro ⟨-, h⟩; rw [opcodeOf_injective h]
  · rw [hd]
    constructor
    · intro h; cases h
    · rintro ⟨hr, ho⟩
      rcases hbad with hr' | hnone
      · exact absurd hr hr'
      · rw [ho, opcodeInstr_opcodeOf] at hnone; cases hnone

/-- The opcodes of R58, written out. -/
theorem exists_eq_opcodeOf_iff (op : Opcode) :
    (∃ i, op = opcodeOf i) ↔ op = 0x1#4 ∨ op = 0x2#4 ∨ op = 0x3#4 ∨ op = 0x4#4 := by
  constructor
  · rintro ⟨i, rfl⟩; cases i <;> decide
  · rintro (h | h | h | h)
    · exact ⟨.frame, h⟩
    · exact ⟨.embed, h⟩
    · exact ⟨.embedRaw, h⟩
    · exact ⟨.extract, h⟩

end Sys2Proof

namespace Sys2Proof.Machine

/-- A word that decodes to no command, written to `CMD` of a ready block: the block after `illegal(d)`, at every sample
width (R67, R69). -/
theorem cmdWrite_illegal {sw : Nat} {s : State sw} (hs : s.ready) {d : Word} (hd : ∀ i, decode d ≠ .ok i) :
    cmdWrite d s =
      .next (s.withBlock (fail .illegalCommand (d.setWidth 64) 0#64 (acceptClear (opcodeField d) s.block))) := by
  obtain ⟨hr, hb⟩ := hs
  rw [cmdWrite_eq, State.onBlock_released hr]
  rcases cmdBlock_idle hb d with ⟨i, hi, _⟩ | ⟨e, _, he⟩
  · exact absurd hi (hd i)
  · rw [he]

/-! ### Framed bits by index (R62, R78) -/

/-- Bit `j` of the payload bits is bit `j % 8` of byte `j / 8` (R43). -/
theorem flatMap_byteBits_eq (p : List Byte) :
    p.flatMap byteBits = (List.range (8 * p.length)).map fun j => (p.getD (j / 8) 0#8).getLsbD (j % 8) := by
  induction p with
  | nil => rfl
  | cons x p ih =>
    have hlen : 8 * (x :: p).length = 8 + 8 * p.length := by simp only [List.length_cons]; omega
    rw [List.flatMap_cons, ih, hlen, List.range_add, List.map_append, List.map_map]
    refine congrArg₂ (· ++ ·) ?_ ?_
    · refine List.map_congr_left fun j hj => ?_
      have hj : j < 8 := List.mem_range.mp hj
      rw [Nat.div_eq_of_lt hj, Nat.mod_eq_of_lt hj, List.getD_cons_zero]
    · refine List.map_congr_left fun j _ => ?_
      have hdiv : (8 + j) / 8 = j / 8 + 1 := by omega
      rw [Function.comp_apply, hdiv, List.getD_cons_succ, Nat.add_mod_left]

/-- The length prefix is bits 0 to 31 of the length as a 32-bit word (R43). -/
theorem lengthBits_eq (n : Nat) : lengthBits n = (List.range 32).map (BitVec.ofNat 32 n).getLsbD := by
  refine List.map_congr_left fun i hi => ?_
  rw [BitVec.getLsbD_ofNat, decide_eq_true (List.mem_range.mp hi), Bool.true_and]

/-- The framed bits of any payload, by index: the prefix below 32 and the payload bits from there on. -/
theorem frameBits_eq_map_framebit (p : List Byte) :
    frameBits p = (List.range (32 + 8 * p.length)).map (framebit (BitVec.ofNat 32 p.length) p) := by
  rw [frameBits, lengthBits_eq, flatMap_byteBits_eq, List.range_add, List.map_append, List.map_map]
  refine congrArg₂ (· ++ ·) ?_ ?_
  · refine List.map_congr_left fun k hk => ?_
    rw [framebit, if_pos (List.mem_range.mp hk)]
  · refine List.map_congr_left fun j _ => ?_
    have hj : ¬ 32 + j < 32 := by omega
    rw [Function.comp_apply, framebit, if_neg hj, Nat.add_sub_cancel_left]

end Sys2Proof.Machine

namespace Sys2Proof.Proofs

open Sys2Proof Sys2Proof.Machine

/-- Settles O4: the legal words by what the decoder answers, the rest by the block after `illegal(d)` (R59, R69). -/
theorem legalWordsAndTheRest : Obligations.LegalWordsAndTheRest := by
  constructor
  · intro d
    simp only [decode_eq_ok_iff, exists_and_left, exists_eq_opcodeOf_iff]
  · intro d s hs hd
    refine ⟨_, cmdWrite_illegal hs hd, rfl, rfl, rfl, rfl, ?_, rfl⟩
    have hlt : d.toNat < 2 ^ 64 := Nat.lt_of_lt_of_le d.isLt (by decide)
    rw [State.withBlock_block, fail_errA, BitVec.toNat_setWidth, Nat.mod_eq_of_lt hlt]

/-- Settles O44: below 2^32 bytes `frame` answers the framed bits, and these are the `framebit`s by index (R62, R78). -/
theorem frameIsTheFramebits : Obligations.FrameIsTheFramebits := fun p hp =>
  (frame_ok_iff p _).mpr ⟨hp, (frameBits_eq_map_framebit p).symm⟩

end Sys2Proof.Proofs
end

section
/-!
The proofs of the command and control family (40_command_control.md): illegal and ignored command words (R69, R70), the
writes to `STATUS` and `CTRL` (R73, R74), and the two resets (R75).
-/

namespace Sys2Proof.Machine

/-! ### The step of a pending move -/

/-- With a move pending, the step is that move in the state whose agenda has moved past it (R50). -/
theorem nextMove_cons {sw : Nat} {s : State sw} {m : Move sw} {rest : List (Move sw)} (ha : s.agenda = m :: rest) :
    nextMove s = runMove m (s.withAgenda rest) := by
  rw [nextMove, ha]

/-- A pending register write, out of reset: the whole next state, whose block is the one `writeBlock` gives (R40). -/
theorem nextMove_write_released {sw : Nat} {s : State sw} {i : Nat} {d : Word} {rest : List (Move sw)}
    (hr : s.rst = false) (hi : i < 64) (ha : s.agenda = .write i d :: rest) :
    nextMove s = .next ((s.withAgenda rest).withBlock (writeBlock i d s.block)) := by
  have hw : nextMove s = regWrite i d (s.withAgenda rest) := nextMove_cons ha
  have hr' : (s.withAgenda rest).rst = false := hr
  rw [hw, regWrite_eq hi, State.onBlock_released hr', State.withAgenda_block]

/-! ### What the writes do to the block -/

/-- The whole block after `illegal(d)` follows acceptance (R67, R69). -/
theorem fail_illegalCommand_acceptClear (d : Word) (b : Block) :
    fail .illegalCommand (d.setWidth 64) 0#64 (acceptClear (opcodeField d) b) =
      { b with
        busy := false, done := true, errCode := .illegalCommand, cmdIgnored := false, op := opcodeField d,
        errA := d.setWidth 64, errB := 0#64, decodedLen := 0#32, pos := 0#64,
        w := { Work.reset with op := opcodeField d } } := rfl

/-- The write to `STATUS` as an update of the block (R73). -/
theorem acknowledge_eq (d : Word) (b : Block) :
    acknowledge d b = { b with done := b.done && !d.getLsbD 1, cmdIgnored := b.cmdIgnored && !d.getLsbD 8 } := by
  obtain ⟨hframe, hdone, hignored⟩ := acknowledge_frame d b
  rw [hframe, hdone, hignored]

/-- A write to `CTRL` with bit 0 set gives the reset block (R74, R75). -/
theorem ctrlWrite_softReset {d : Word} (hd : d.getLsbD 0 = true) (b : Block) : ctrlWrite d b = Block.reset := by
  rw [ctrlWrite, if_pos hd]

/-- `CTRL.SRST` reads 0 (R74). -/
@[simp] theorem ctrlWord_getLsbD_zero (b : Block) : (ctrlWord b).getLsbD 0 = false := by
  simp [ctrlWord]

/-- `CTRL.IE` is bit 1 of the word read (R21). -/
@[simp] theorem ctrlWord_getLsbD_one (b : Block) : (ctrlWord b).getLsbD 1 = b.ie := by
  simp [ctrlWord]

/-! ### The idle engine -/

/-- The turn of an idle engine changes nothing (R51). -/
theorem engineTurn_idle {sw : Nat} {s : State sw} (hb : s.block.busy = false) : engineTurn s = .next s := by
  simp [engineTurn, hb]

/-- The reset block is idle, so no beat follows a reset (R75). -/
theorem engineTurn_of_block_eq_reset {sw : Nat} {s : State sw} (hb : s.block = Block.reset) :
    engineTurn s = .next s :=
  engineTurn_idle (by rw [hb]; rfl)

end Sys2Proof.Machine

namespace Sys2Proof.Proofs

open Sys2Proof Sys2Proof.Machine

/-- Settles O13: the step is the write to `CMD`, which ends in `illegal(d)` after the clearing of acceptance (R67, R69). -/
theorem illegalWordAtAcceptance : Obligations.IllegalWordAtAcceptance := by
  intro s d rest e hs ha he
  have hd : ∀ i, decode d ≠ .ok i := by
    intro i hi
    rw [he] at hi
    cases hi
  have hw : step s = cmdWrite d (s.withAgenda rest) := nextMove_cons ha
  have hready : (s.withAgenda rest).ready := hs
  rw [hw, cmdWrite_illegal hready hd, fail_illegalCommand_acceptClear, BitVec.ofNat_toNat]
  rfl

/-- Settles O37: both resets put the reset block in place and touch nothing but the block, the reset level and the
agenda; the block they leave is idle, so the engine's turn keeps it (R75, R125). -/
theorem resetAbandonsRunningCommand : Obligations.ResetAbandonsRunningCommand := by
  constructor
  · intro s rest ha
    have hstep : step s = .next (s.withAgenda rest).assertReset := nextMove_cons ha
    exact ⟨_, hstep, rfl, rfl, rfl, rfl, rfl, engineTurn_of_block_eq_reset rfl, engineTurn_of_block_eq_reset rfl⟩
  · intro s d rest hr hd ha
    have hstep : step s = .next ((s.withAgenda rest).withBlock (ctrlWrite d s.block)) :=
      nextMove_write_released hr (by decide) ha
    rw [ctrlWrite_softReset hd] at hstep
    exact ⟨_, hstep, rfl, rfl, hr, rfl, rfl, engineTurn_of_block_eq_reset rfl⟩

/-- Settles O14: legal or not, a word written to `CMD` of a busy block is ignored (R70). -/
theorem commandWriteWhileBusyIgnored : Obligations.CommandWriteWhileBusyIgnored := by
  intro s d rest hr hb ha
  have hstep : step s = .next ((s.withAgenda rest).withBlock (cmdBlock d s.block)) :=
    nextMove_write_released hr (by decide) ha
  rw [hstep, cmdBlock_busy hb]

/-- Settles O33: the write to index 3 is `acknowledge` (R73). -/
theorem statusWriteAcknowledges : Obligations.StatusWriteAcknowledges := by
  intro s d rest hr ha
  have hstep : step s = .next ((s.withAgenda rest).withBlock (acknowledge d s.block)) :=
    nextMove_write_released hr (by decide) ha
  rw [hstep, acknowledge_eq]

/-- Settles O34: the write to index 1 is `ctrlWrite`, and the word read at index 1 is `ctrlWord` (R39, R74). -/
theorem controlWrite : Obligations.ControlWrite := by
  constructor
  · intro s d rest hr ha
    have hstep : step s = .next ((s.withAgenda rest).withBlock (ctrlWrite d s.block)) :=
      nextMove_write_released hr (by decide) ha
    rw [hstep, ctrlWrite]
  · intro b
    exact ⟨ctrlWord_getLsbD_zero b, ctrlWord_getLsbD_one b⟩

end Sys2Proof.Proofs
end

section
/-!
The proofs of the framer family (41_framer.md): the framer's bit at each kind of position, and the FRAME beat (R80).
-/

namespace Sys2Proof.Machine

/-! ### The engine's turn by the running command's beat (R45, R72) -/

/-- While the running command's beat is not enabled, the engine's turn changes nothing (R45, R124). -/
theorem engineTurn_running_wait {sw : Nat} {s : State sw} {i : Instr} (hrun : s.running i)
    (hbeat : beatOf i s.block s.streams = none) : engineTurn s = .next s := by
  obtain ⟨hr, hb, ho⟩ := hrun
  rw [engineTurn_running hr hb ho, hbeat]

/-- The engine's turn in a running command puts in place what an enabled beat gives (R72). -/
theorem engineTurn_running_beat {sw : Nat} {s : State sw} {i : Instr} {b : Block} {q : Streams sw} (hrun : s.running i)
    (hbeat : beatOf i s.block s.streams = some (b, q)) : engineTurn s = .next ((s.withBlock b).withStreams q) := by
  obtain ⟨hr, hb, ho⟩ := hrun
  rw [engineTurn_running hr hb ho, hbeat]

/-! ### The framer's bit by position (R80, R88) -/

/-- Below position 32 the framer gives a length bit and takes nothing. -/
theorem framerBit_length {b : Block} (hk : b.pos.toNat < 32) (pIn : List Byte) :
    framerBit b pIn = some (b.w.len.getLsbD b.pos.toNat, b, pIn) := by
  rw [framerBit.eq_def, if_pos hk]

/-- At the first bit of a byte there is no framer's bit while `P_IN` is empty. -/
theorem framerBit_newByte_nil {b : Block} (hk : 32 ≤ b.pos.toNat) (hj : (b.pos.toNat - 32) % 8 = 0) :
    framerBit b [] = none := by
  rw [framerBit, if_neg (Nat.not_lt.mpr hk), if_pos hj]

/-- At the first bit of a byte the framer takes the head of `P_IN` into `w.byte_sr` and gives its bit 0. -/
theorem framerBit_newByte_cons {b : Block} (hk : 32 ≤ b.pos.toNat) (hj : (b.pos.toNat - 32) % 8 = 0) (x : Byte)
    (rest : List Byte) :
    framerBit b (x :: rest) = some (x.getLsbD 0, { b with w := { b.w with byteSr := x } }, rest) := by
  rw [framerBit, if_neg (Nat.not_lt.mpr hk), if_pos hj]

/-- At a later bit of a byte the framer gives that bit of `w.byte_sr` and takes nothing. -/
theorem framerBit_laterBit {b : Block} (hk : 32 ≤ b.pos.toNat) (hj : (b.pos.toNat - 32) % 8 ≠ 0) (pIn : List Byte) :
    framerBit b pIn = some (b.w.byteSr.getLsbD ((b.pos.toNat - 32) % 8), b, pIn) := by
  rw [framerBit.eq_def, if_neg (Nat.not_lt.mpr hk), if_neg hj]

/-! ### The FRAME beat by the framer's bit (R80) -/

/-- Without a framer's bit the FRAME beat is not enabled, and the turn changes nothing. -/
theorem engineTurn_frame_wait {sw : Nat} {s : State sw} (hrun : s.running .frame)
    (hf : framerBit s.block s.streams.pIn = none) : engineTurn s = .next s :=
  engineTurn_running_wait hrun (by rw [beatOf, beatFrame, hf])

/-- The FRAME beat gives the framer's bit on `B_OUT` and ends with `endBeat`. -/
theorem engineTurn_frame_beat {sw : Nat} {s : State sw} {bit : Bit} {b : Block} {rest : List Byte}
    (hrun : s.running .frame) (hf : framerBit s.block s.streams.pIn = some (bit, b, rest)) :
    engineTurn s = .next ((s.withBlock (endBeat b)).withStreams
      { s.streams with pIn := rest, bOut := s.streams.bOut ++ [bit] }) :=
  engineTurn_running_beat hrun (by rw [beatOf, beatFrame, hf])

end Sys2Proof.Machine

namespace Sys2Proof.Proofs

open Sys2Proof Sys2Proof.Machine

/-- Settles O19: at each kind of position the turn is the beat that gives the framer's bit there, or the wait for a
missing byte (R80). -/
theorem frameBeat : Obligations.FrameBeat := by
  intro s hrun
  refine ⟨fun hk => ?lengthBit, fun hk hj => ⟨fun hp => ?missingByte, fun x rest hp => ?newByte⟩, fun hk hj => ?laterBit⟩
  case lengthBit => exact engineTurn_frame_beat hrun (framerBit_length hk _)
  case missingByte => exact engineTurn_frame_wait hrun (hp ▸ framerBit_newByte_nil hk hj)
  case newByte => exact engineTurn_frame_beat hrun (hp ▸ framerBit_newByte_cons hk hj x rest)
  case laterBit => exact engineTurn_frame_beat hrun (framerBit_laterBit hk hj _)

end Sys2Proof.Proofs
end

section
/-!
The proofs of the embedder family (42_embedder.md): the EMBED beat (R88), by the sample at the head of `S_IN` and the
framer's bit, and the per-sample rule (R83).
-/

namespace Sys2Proof.Machine

/-! ### The EMBED beat by the sample and the framer's bit (R88) -/

/-- Without a sample the EMBED beat is not enabled, and the turn changes nothing. -/
theorem engineTurn_embed_noSample {sw : Nat} {s : State sw} (hrun : s.running .embed) (hs : s.streams.sIn = []) :
    engineTurn s = .next s :=
  engineTurn_running_wait hrun (by rw [beatOf, beatEmbed, hs])

/-- Past the framed bits the EMBED beat passes the sample through and ends with `endBeat`. -/
theorem engineTurn_embed_passThrough {sw : Nat} {s : State sw} {x : BitVec sw} {rest : List (BitVec sw)}
    (hrun : s.running .embed) (hs : s.streams.sIn = x :: rest) (hk : s.block.w.nbits.toNat ≤ s.block.pos.toNat) :
    engineTurn s = .next ((s.withBlock (endBeat s.block)).withStreams
      { s.streams with sIn := rest, sOut := s.streams.sOut ++ [x] }) := by
  have hpast : ¬ s.block.pos < s.block.w.nbits := Nat.not_lt.mpr hk
  exact engineTurn_running_beat hrun (by rw [beatOf, beatEmbed, hs]; exact if_neg hpast)

/-- Before the end of the framed bits and without a framer's bit the EMBED beat takes no sample: the turn changes
nothing. -/
theorem engineTurn_embed_noBit {sw : Nat} {s : State sw} (hrun : s.running .embed)
    (hk : s.block.pos.toNat < s.block.w.nbits.toNat) (hf : framerBit s.block s.streams.pIn = none) :
    engineTurn s = .next s := by
  cases hs : s.streams.sIn with
  | nil => exact engineTurn_embed_noSample hrun hs
  | cons x rest =>
    have hlt : s.block.pos < s.block.w.nbits := hk
    exact engineTurn_running_wait hrun (by rw [beatOf, beatEmbed, hs]; simp only [if_pos hlt, hf])

/-- Before the end of the framed bits the EMBED beat puts the framer's bit into the sample and ends with `endBeat`. -/
theorem engineTurn_embed_beat {sw : Nat} {s : State sw} {x : BitVec sw} {rest : List (BitVec sw)} {bit : Bit} {b : Block}
    {pRest : List Byte} (hrun : s.running .embed) (hs : s.streams.sIn = x :: rest)
    (hk : s.block.pos.toNat < s.block.w.nbits.toNat) (hf : framerBit s.block s.streams.pIn = some (bit, b, pRest)) :
    engineTurn s = .next ((s.withBlock (endBeat b)).withStreams
      { s.streams with sIn := rest, pIn := pRest, sOut := s.streams.sOut ++ [setLsb x bit] }) := by
  have hlt : s.block.pos < s.block.w.nbits := hk
  exact engineTurn_running_beat hrun (by rw [beatOf, beatEmbed, hs]; simp only [if_pos hlt, hf])

/-! ### The per-sample rule (R83) -/

/-- Bit 0 of `setLsb s b` is `b`. -/
theorem getLsbD_setLsb_zero {sw : Nat} (hsw : 1 ≤ sw) (s : BitVec sw) (b : Bit) : (setLsb s b).getLsbD 0 = b :=
  lsb_setLsb hsw s b

/-- `setLsb` keeps every bit but bit 0. -/
theorem getLsbD_setLsb_of_one_le {sw j : Nat} (hj : 1 ≤ j) (s : BitVec sw) (b : Bit) :
    (setLsb s b).getLsbD j = s.getLsbD j := by
  rw [getLsbD_setLsb, if_neg (Nat.one_le_iff_ne_zero.mp hj)]

/-- A sample of one bit is replaced whole. -/
theorem setLsb_width_one (s : BitVec 1) (b : Bit) : setLsb s b = BitVec.ofBool b := by
  refine BitVec.eq_of_getLsbD_eq fun i hi => ?_
  obtain rfl : i = 0 := Nat.lt_one_iff.mp hi
  rw [getLsbD_setLsb_zero le_rfl, BitVec.getLsbD_ofBool, decide_eq_true rfl, Bool.true_and]

end Sys2Proof.Machine

namespace Sys2Proof.Proofs

open Sys2Proof Sys2Proof.Machine

/-- Settles O20: with a sample at hand and framed bits left, the turn is the beat that puts the framer's bit of the
position into the sample, or the wait for a missing byte; otherwise it is the wait for a sample or the pass-through
(R88). -/
theorem embedBeat : Obligations.EmbedBeat := by
  intro s hrun
  refine ⟨fun hs => ?missingSample, fun x rest hs => ⟨fun hk => ?passThrough, fun hk h32 => ?lengthBit,
    fun hk h32 hj => ⟨fun hp => ?missingByte, fun y pRest hp => ?newByte⟩, fun hk h32 hj => ?laterBit⟩⟩
  case missingSample => exact engineTurn_embed_noSample hrun hs
  case passThrough => exact engineTurn_embed_passThrough hrun hs hk
  case lengthBit => exact engineTurn_embed_beat hrun hs hk (framerBit_length h32 _)
  case missingByte => exact engineTurn_embed_noBit hrun hk (hp ▸ framerBit_newByte_nil h32 hj)
  case newByte => exact engineTurn_embed_beat hrun hs hk (hp ▸ framerBit_newByte_cons h32 hj y pRest)
  case laterBit => exact engineTurn_embed_beat hrun hs hk (framerBit_laterBit h32 hj _)

/-- Settles O41, bit by bit (R83). -/
theorem setLsbReplacesBitZeroOnly : Obligations.SetLsbReplacesBitZeroOnly :=
  ⟨fun _ s b hsw => ⟨getLsbD_setLsb_zero hsw s b, fun _ hj => getLsbD_setLsb_of_one_le hj s b⟩, setLsb_width_one⟩

end Sys2Proof.Proofs
end

section
/-!
The proofs of the extractor family (43_extractor.md): the EXTRACT beat below position 32, with the length check (R99, R100).
-/

namespace Sys2Proof.Machine

/-! ### The EXTRACT beat by the sample (R99) -/

/-- Without a sample the EXTRACT beat is not enabled, and the turn changes nothing. -/
theorem engineTurn_extract_noSample {sw : Nat} {s : State sw} (hrun : s.running .extract) (hs : s.streams.sIn = []) :
    engineTurn s = .next s :=
  engineTurn_running_wait hrun (by rw [beatOf, beatExtract, hs])

/-- Below position 32 the EXTRACT beat takes the sample and gives nothing; the block is the one `lengthBeat` gives. -/
theorem engineTurn_extract_lengthBeat {sw : Nat} {s : State sw} {x : BitVec sw} {rest : List (BitVec sw)}
    (hrun : s.running .extract) (hs : s.streams.sIn = x :: rest) (hk : s.block.pos.toNat < 32) :
    engineTurn s = .next ((s.withStreams { s.streams with sIn := rest }).withBlock (lengthBeat s.block (lsb x))) :=
  engineTurn_running_beat hrun (by rw [beatOf, beatExtract, hs]; exact if_pos hk)

/-- Writing a bit inside the word: bit `k` is `b` and every other bit is kept. -/
theorem getLsbD_writeBit_of_lt {n k : Nat} (hk : k < n) (v : BitVec n) (b : Bit) (i : Nat) :
    (writeBit v k b).getLsbD i = if i = k then b else v.getLsbD i := by
  rw [getLsbD_writeBit, decide_eq_true hk, Bool.true_and]

/-! ### The length check (R100) -/

/-- The framed bit count as the number `32 + 8 * L` in 64 bits (R9). -/
theorem framedCount_eq_ofNat (len : Word) : framedCount len = BitVec.ofNat 64 (32 + 8 * len.toNat) := by
  rw [← framedCount_toNat, BitVec.ofNat_toNat, BitVec.setWidth_eq]

/-- The comparison that fails the length check, on numbers: `32 + 8 * L` exceeds `N`. -/
theorem lt_framedCount_iff (n : DWord) (len : Word) : n < framedCount len ↔ n.toNat < 32 + 8 * len.toNat := by
  rw [BitVec.lt_def, framedCount_toNat]

/-- The comparison that finds an empty payload, on numbers. -/
theorem word_toNat_eq_zero_iff (len : Word) : len.toNat = 0 ↔ len = 0#32 :=
  BitVec.toNat_inj (y := 0#32)

/-- The position after the beat at position 31. -/
theorem pos_add_one_of_toNat_eq_31 {p : DWord} (h : p.toNat = 31) : p + 1#64 = 32#64 := by
  have hp : p = 31#64 := BitVec.eq_of_toNat_eq h
  rw [hp]
  rfl

end Sys2Proof.Machine

namespace Sys2Proof.Proofs

open Sys2Proof Sys2Proof.Machine

/-- Settles O22: the turn is the wait for a sample or the length beat, and the length beat advances or, at position 31,
ends in one of the three ways of the length check (R99, R100). -/
theorem extractLengthBeat : Obligations.ExtractLengthBeat := by
  intro s hrun hk
  refine ⟨fun hs => engineTurn_extract_noSample hrun hs, fun x rest hs => ?_⟩
  obtain ⟨L, hL, hcases⟩ := lengthBeat_cases s.block (lsb x)
  refine ⟨L, fun j _ => ?lengthBit, ?turn⟩
  case lengthBit => rw [hL, getLsbD_writeBit_of_lt hk, lsb]
  case turn =>
    rw [engineTurn_extract_lengthBeat hrun hs hk]
    refine congrArg (fun b => Host.Outcome.next (State.withBlock _ b)) ?_
    simp only [← lt_framedCount_iff, ← framedCount_eq_ofNat, word_toNat_eq_zero_iff]
    rcases hcases with ⟨h31, hb⟩ | ⟨h31, hn, hb⟩ | ⟨h31, hn, hL0, hb⟩ | ⟨h31, hn, hL0, hb⟩
    · have hlt : s.block.pos.toNat < 31 := by omega
      rw [hb, if_pos hlt]
    all_goals
      have hge : ¬ s.block.pos.toNat < 31 := by omega
      rw [hb, pos_add_one_of_toNat_eq_31 h31, if_neg hge]
    · rw [if_pos hn]
    · rw [if_neg (BitVec.not_lt.mpr hn), if_pos hL0]
    · rw [if_neg (BitVec.not_lt.mpr hn), if_neg hL0]

end Sys2Proof.Proofs
end

section
/-!
The proofs of the exceptions family (60_exceptions.md): the start checks that fail at acceptance (R106, R107, R109), and
the error record they leave (R71, R114).
-/

namespace Sys2Proof.Machine

/-! ### The start checks that fail (R79, R87, R91, R98) -/

/-- The comparison of the capacity check of EMBED, on numbers (R87). -/
theorem lt_framedCount_loWord_iff {x : DWord} (h : x.toNat < 2 ^ 32) (n : DWord) :
    n < framedCount (loWord x) ↔ n.toNat < 32 + 8 * x.toNat := by
  rw [BitVec.lt_def, framedCount_loWord h]

theorem startFrame_of_payloadTooLarge {b : Block} (h : 2 ^ 32 ≤ b.payloadLen.toNat) :
    startFrame b = fail .payloadTooLarge b.payloadLen maxLen b := by
  rcases startFrame_cases b with ⟨_, hfail⟩ | ⟨hlt, _⟩
  · exact hfail
  · exact absurd h (Nat.not_le.mpr hlt)

theorem startEmbed_of_payloadTooLarge {b : Block} (h : 2 ^ 32 ≤ b.payloadLen.toNat) :
    startEmbed b = fail .payloadTooLarge b.payloadLen maxLen b := by
  rcases startEmbed_cases b with ⟨_, hfail⟩ | ⟨hlt, _⟩ | ⟨hlt, _⟩
  · exact hfail
  all_goals exact absurd h (Nat.not_le.mpr hlt)

/-- A failed capacity check of EMBED leaves `w.len` and `w.nbits` as the start part wrote them before it (R87). -/
theorem startEmbed_of_capacityExceeded {b : Block} (hlen : b.payloadLen.toNat < 2 ^ 32)
    (hn : b.sampleCount.toNat < 32 + 8 * b.payloadLen.toNat) :
    startEmbed b = fail .capacityExceeded (framedCount (loWord b.payloadLen)) b.sampleCount
      { b with w := { b.w with len := loWord b.payloadLen, nbits := framedCount (loWord b.payloadLen) } } := by
  rcases startEmbed_cases b with ⟨hge, _⟩ | ⟨_, _, hfail⟩ | ⟨_, hge, _⟩
  · exact absurd hlen (Nat.not_lt.mpr hge)
  · exact hfail
  · exact absurd ((lt_framedCount_loWord_iff hlen _).mpr hn) (BitVec.not_lt.mpr hge)

theorem startEmbedRaw_of_capacityExceeded {b : Block} (h : b.sampleCount < b.bitCount) :
    startEmbedRaw b = fail .capacityExceeded b.bitCount b.sampleCount b := by
  rcases startEmbedRaw_cases b with ⟨_, hfail⟩ | ⟨hge, _⟩
  · exact hfail
  · exact absurd h (BitVec.not_lt.mpr hge)

theorem startExtract_of_insufficientSamples {b : Block} (h : b.sampleCount < 32#64) :
    startExtract b = fail .insufficientSamples 32#64 b.sampleCount b := by
  rcases startExtract_cases b with ⟨_, hfail⟩ | ⟨hge, _⟩
  · exact hfail
  · exact absurd h (BitVec.not_lt.mpr hge)

/-! ### A command whose start part fails -/

/-- A command whose start part fails is over at acceptance: its error record holds the two quantities, `OP` names it,
`POS` and `DECODED_LEN` are 0 and no stream has changed, whatever block `b` the failure was taken in (R67, R68, R71). -/
theorem exec_of_start_fails {s : State} (i : Instr) {code : ErrCode} {x y : DWord} {b : Block} (hs : s.ready)
    (hstart : startOf i (acceptClear (opcodeOf i) s.block) = fail code x y b) :
    ∃ t, exec i s = .next t ∧ t.streams = s.streams ∧ t.block.op = opcodeOf i ∧ t.block.pos = 0#64 ∧
      t.block.decodedLen = 0#32 ∧ t.block.failed code x.toNat y.toNat := by
  obtain ⟨hr, hb⟩ := hs
  obtain ⟨_, _, _, _, hpos, hop, _, hdec⟩ := startOf_keeps i (acceptClear (opcodeOf i) s.block)
  rw [hstart] at hpos hop hdec
  have hexec : exec i s = .next (s.withBlock (fail code x y b)) := by
    rw [exec_ready hr hb, hstart, launch_fail]
  exact ⟨_, hexec, rfl, hop, hpos, hdec, rfl, rfl, rfl, rfl, rfl⟩

end Sys2Proof.Machine

namespace Sys2Proof.Proofs

open Sys2Proof Sys2Proof.Machine

/-- Settles O10: the payload length is the first check of the start part of FRAME and of EMBED (R107, R112). -/
theorem payloadTooLargeAtAcceptance : Obligations.PayloadTooLargeAtAcceptance := by
  intro s i hs hi hlen
  rcases hi with rfl | rfl
  · exact exec_of_start_fails .frame hs (startFrame_of_payloadTooLarge hlen)
  · exact exec_of_start_fails .embed hs (startEmbed_of_payloadTooLarge hlen)

/-- Settles O11: the capacity check of EMBED, whose needed size is the framed bit count, and that of EMBED_RAW (R106). -/
theorem capacityExceededAtAcceptance : Obligations.CapacityExceededAtAcceptance := by
  constructor
  · intro s hs hlen hn
    rw [← framedCount_loWord hlen]
    exact exec_of_start_fails .embed hs (startEmbed_of_capacityExceeded hlen hn)
  · intro s hs hn
    exact exec_of_start_fails .embedRaw hs (startEmbedRaw_of_capacityExceeded hn)

/-- Settles O12: the sample count is the only check of the start part of EXTRACT (R109). -/
theorem insufficientSamplesAtAcceptance : Obligations.InsufficientSamplesAtAcceptance := by
  intro s hs hn
  exact exec_of_start_fails .extract hs (startExtract_of_insufficientSamples hn)

end Sys2Proof.Proofs
end

section
/-!
The proof of the reset values (70_reset_and_hazards.md R126): the words the host reads from the reset block, and `INFO`,
which no block changes.
-/

namespace Sys2Proof.Machine

/-- `INFO` is the constant of the sample width, whatever the block holds (R19, R39). -/
@[simp] theorem readWord_info (sw : Nat) (b : Block) : readWord sw b 0 = infoWord sw := rfl

/-- `INFO` of this hardware: `FMT_VER` 1 above `SAMPLE_W` 16 (R20, R126). -/
theorem infoWord_sampleW : infoWord Config.sampleW = 0x00000110#32 := by decide

theorem ctrlWord_reset : ctrlWord Block.reset = 0#32 := by decide

theorem statusWord_reset : statusWord Block.reset = 0#32 := by decide

/-- After reset every index but that of `INFO` reads 0, the unassigned ones included (R39, R126). -/
theorem readWord_reset (sw : Nat) {i : Nat} (hi : i ≠ 0) : readWord sw Block.reset i = 0#32 := by
  unfold readWord
  split
  case h_1 => exact absurd rfl hi
  case h_2 => exact ctrlWord_reset
  case h_4 => exact statusWord_reset
  all_goals rfl

end Sys2Proof.Machine

namespace Sys2Proof.Proofs

open Sys2Proof Sys2Proof.Machine

/-- Settles O36: the fields are those of `Block.reset`, the words read are those of `readWord_reset` and of the constant
`INFO`, and the reset input replaces nothing but the block and its own level (R125, R126). -/
theorem resetValues : Obligations.ResetValues := by
  have hinfo : ∀ b : Block, readWord Config.sampleW b 0 = 0x00000110#32 := fun b => by
    rw [readWord_info, infoWord_sampleW]
  refine ⟨rfl, rfl, rfl, rfl, rfl, rfl, rfl, rfl, rfl, rfl, rfl, rfl, rfl, rfl, rfl, rfl, rfl, rfl, rfl, rfl, rfl,
    hinfo _, ?words, hinfo, ?resetInput⟩
  case words => exact fun i _ hi => readWord_reset _ hi
  case resetInput => exact fun s => ⟨s.assertReset_block, s.assertReset_streams⟩

end Sys2Proof.Proofs
end

section
/-!
The invariant of the machine (10_state.md, 40_command_control.md, 60_exceptions.md): one lemma for each way a step can
change the block, then the kinds of step; and what a step answers when it is no next state.
-/

namespace Sys2Proof.Machine

/-! ### What a register write can do to the block -/

/-- What a write of `d` to index `i` can do to a block `b` that is not in reset: a soft reset or a new `IE` (R74), an
ignored word (R70), an accepted command or illegal word (R67 to R69), an acknowledgement (R73), or another operand
(R40). -/
inductive WriteKind (i : Nat) (d : Word) (b : Block) : Block → Prop where
  | softReset (hi : i = 1) (hd : d.getLsbD 0 = true) : WriteKind i d b Block.reset
  | enable (hi : i = 1) (hd : d.getLsbD 0 = false) : WriteKind i d b { b with ie := d.getLsbD 1 }
  | ignored (hi : i = 2) (hb : b.busy = true) : WriteKind i d b { b with cmdIgnored := true }
  | command (hi : i = 2) (hb : b.busy = false) (j : Instr) (hd : decode d = .ok j) :
      WriteKind i d b (launch (startOf j (acceptClear (opcodeOf j) b)))
  | illegal (hi : i = 2) (hb : b.busy = false) (e : DecodeError) (hd : decode d = .error e) :
      WriteKind i d b (fail .illegalCommand (d.setWidth 64) 0#64 (acceptClear (opcodeField d) b))
  | acknowledge (hi : i = 3) :
      WriteKind i d b { b with done := b.done && !d.getLsbD 1, cmdIgnored := b.cmdIgnored && !d.getLsbD 8 }
  | operand (p n m : DWord) (hp : p = b.payloadLen ∨ i = 4 ∨ i = 5) (hn : n = b.sampleCount ∨ i = 6 ∨ i = 7)
      (hm : m = b.bitCount ∨ i = 8 ∨ i = 9) :
      WriteKind i d b { b with payloadLen := p, sampleCount := n, bitCount := m }

/-- Every register write is of one of these kinds (R40). -/
theorem writeBlock_cases (i : Nat) (d : Word) (b : Block) : WriteKind i d b (writeBlock i d b) := by
  unfold writeBlock
  split
  case h_1 =>
    rw [ctrlWrite]
    cases hd : d.getLsbD 0
    · exact .enable rfl hd
    · exact .softReset rfl hd
  case h_2 =>
    cases hb : b.busy
    · rcases cmdBlock_idle hb d with ⟨j, hd, h⟩ | ⟨e, hd, h⟩ <;> rw [h]
      · exact .command rfl hb j hd
      · exact .illegal rfl hb e hd
    · rw [cmdBlock_busy hb]
      exact .ignored rfl hb
  case h_3 => rw [acknowledge_eq]; exact .acknowledge rfl
  case h_4 | h_5 => exact .operand _ _ _ (.inr (by decide)) (.inl rfl) (.inl rfl)
  case h_6 | h_7 => exact .operand _ _ _ (.inl rfl) (.inr (by decide)) (.inl rfl)
  case h_8 | h_9 => exact .operand _ _ _ (.inl rfl) (.inl rfl) (.inr (by decide))
  case h_10 => exact .operand _ _ _ (.inl rfl) (.inl rfl) (.inl rfl)

theorem writeKind_of_eq {i : Nat} {d : Word} {b b' : Block} (h : b' = writeBlock i d b) : WriteKind i d b b' :=
  h ▸ writeBlock_cases i d b

/-! ### The invariant of the block -/

/-- The part of `State.inv` that speaks of the block. -/
abbrev Block.inv (b : Block) : Prop := b.flagsInv ∧ b.runInv ∧ b.errorInv

/-- The invariant of the machine is that of its block, and the reset block under an asserted reset. -/
theorem State.inv_iff {sw : Nat} (s : State sw) :
    s.inv ↔ s.block.inv ∧ (s.rst = true → s.block = Block.reset) := by
  simp only [State.inv, Block.inv, and_assoc]

/-- With the reset input released the invariant of the machine is that of its block. -/
theorem State.inv_of_released {sw : Nat} {s : State sw} (hr : s.rst = false) (hb : s.block.inv) : s.inv :=
  (State.inv_iff s).mpr ⟨hb, fun h => absurd (hr.symm.trans h) Bool.false_ne_true⟩

/-- An idle block needs no more than `OP = w.op` and a record that agrees with its error code. -/
theorem Block.inv_of_idle {b : Block} (hbusy : b.busy = false) (hop : b.op = b.w.op) (herr : b.errorInv) : b.inv := by
  have hnot : ¬ b.busy = true := by rw [hbusy]; exact Bool.false_ne_true
  exact ⟨⟨fun h => absurd h hnot, hop, fun h => absurd h hnot, fun h => absurd h hnot, fun h => absurd h hnot⟩,
    fun h => absurd h hnot, herr⟩

/-- A block with no error recorded needs clear diagnostics, `w.total` beats performed if it is idle, and a decoded
length in EXTRACT only. -/
theorem Block.errorInv_of_noError {b : Block} (hcode : b.errCode = .noError) (ha : b.errA = 0#64) (hb : b.errB = 0#64)
    (hpos : b.busy = false → b.pos = b.w.total) (hdec : b.decodedLen ≠ 0#32 → b.op = opcodeOf .extract) :
    b.errorInv := by
  simp only [Block.errorInv, hcode, reduceCtorEq, false_implies, true_and, true_implies]
  exact ⟨⟨ha, hb⟩, hpos, hdec⟩

theorem Block.inv_reset : Block.reset.inv := ⟨by decide, by decide, by decide⟩

/-- The invariant says nothing of `IE`, `CMD_IGNORED` and the operand registers. -/
theorem Block.inv_of_unobserved {b : Block} (h : b.inv) (ie ignored : Bool) (p n m : DWord) :
    Block.inv { b with ie := ie, cmdIgnored := ignored, payloadLen := p, sampleCount := n, bitCount := m } := h

/-- Clearing `DONE` keeps the invariant, which asks for nothing but that it is 0 while busy. -/
theorem Block.inv_of_done_le {b : Block} (h : b.inv) {done : Bool} (hd : b.done = false → done = false) :
    Block.inv { b with done := done } := by
  obtain ⟨⟨hflags, hop, hrunning, hnoErr, hpos⟩, hrun, herr⟩ := h
  exact ⟨⟨fun hb => hd (hflags hb), hop, hrunning, hnoErr, hpos⟩, hrun, herr⟩

/-! ### Register writes -/

/-- A word the decoder refuses is not legal (R59). -/
theorem legalWord_of_decode_error {d : Word} {e : DecodeError} (h : decode d = .error e) : legalWord d = false := by
  rw [← Bool.not_eq_true]
  intro hl
  simp only [legalWord, Bool.and_eq_true, beq_iff_eq, List.contains_iff_mem, List.mem_cons, List.not_mem_nil,
    or_false] at hl
  obtain ⟨hr, hop⟩ := hl
  obtain ⟨i, hi⟩ := (exists_eq_opcodeOf_iff _).mpr hop
  rw [(decode_eq_ok_iff d i).mpr ⟨hr, hi⟩] at h
  cases h

/-- The low half of a word in 64 bits is the word. -/
@[simp] theorem loWord_setWidth (d : Word) : loWord (d.setWidth 64) = d := by
  have := d.isLt
  apply BitVec.eq_of_toNat_eq
  rw [loWord_toNat, BitVec.toNat_setWidth]
  omega

/-- An illegal word accepted by an idle block leaves a block that meets the invariant (R69, R110). -/
theorem illegal_inv {d : Word} (hd : legalWord d = false) (b : Block) :
    (fail .illegalCommand (d.setWidth 64) 0#64 (acceptClear (opcodeField d) b)).inv := by
  refine Block.inv_of_idle rfl rfl ?_
  simp [Block.errorInv, hd]

/-- A start part that found its operands legal: launching it gives a block that meets the invariant, whether it has a
beat to take or completes at once (R68). -/
theorem launch_inv {b : Block} {i : Instr} (hdone : b.done = false) (hop : b.op = b.w.op)
    (hi : b.w.op = opcodeOf i) (hcode : b.errCode = .noError) (ha : b.errA = 0#64) (hb : b.errB = 0#64)
    (hpos : b.pos = 0#64) (hdec : b.decodedLen = 0#32) (hrun : Block.runInv { b with busy := true }) :
    (launch b).inv := by
  have hnoLen : b.decodedLen ≠ 0#32 → b.op = opcodeOf .extract := fun h => absurd hdec h
  rcases launch_cases b with ⟨hd, _⟩ | ⟨_, htotal, h⟩ | ⟨_, htotal, h⟩
  · rw [hdone] at hd; cases hd
  · rw [h]
    exact Block.inv_of_idle rfl hop (Block.errorInv_of_noError rfl ha hb (fun _ => hpos.trans htotal.symm) hnoLen)
  · rw [h]
    have hlt : b.pos < b.w.total := by rw [hpos]; exact (BitVec.pos_iff_ne_zero _).mpr htotal
    have hsome : (opcodeInstr b.w.op).isSome = true := by rw [hi, opcodeInstr_opcodeOf]; rfl
    exact ⟨⟨fun _ => hdone, hop, fun _ => hsome, fun _ => hcode, fun _ => hlt⟩, hrun,
      Block.errorInv_of_noError hcode ha hb (fun h => nomatch h) hnoLen⟩

/-- A payload length of 2^32 or more exceeds the largest legal one (R105). -/
theorem maxLen_lt {x : DWord} (h : 2 ^ 32 ≤ x.toNat) : maxLen < x :=
  Nat.lt_of_lt_of_le (by decide : maxLen.toNat < 2 ^ 32) h

/-- Acceptance and start of a command give a block that meets the invariant, whatever the block held: a start part that
fails leaves the record of its error, any other one leaves the working fields of its command (R67, R68). -/
theorem launch_startOf_inv (i : Instr) (b : Block) :
    (launch (startOf i (acceptClear (opcodeOf i) b))).inv := by
  cases i <;> simp only [startOf]
  case frame =>
    rcases startFrame_cases (acceptClear (opcodeOf .frame) b) with ⟨hlen, h⟩ | ⟨_, h⟩ <;> rw [h]
    · rw [launch_fail]
      have hmax : maxLen < b.payloadLen := maxLen_lt hlen
      exact Block.inv_of_idle rfl rfl (by simpa [Block.errorInv] using hmax)
    · exact launch_inv (i := .frame) rfl rfl rfl rfl rfl rfl rfl rfl (by simp [Block.runInv, opcodeOf])
  case embed =>
    rcases startEmbed_cases (acceptClear (opcodeOf .embed) b) with ⟨hlen, h⟩ | ⟨_, hn, h⟩ | ⟨_, hn, h⟩ <;> rw [h]
    · rw [launch_fail]
      have hmax : maxLen < b.payloadLen := maxLen_lt hlen
      exact Block.inv_of_idle rfl rfl (by simpa [Block.errorInv] using hmax)
    · rw [launch_fail]
      exact Block.inv_of_idle rfl rfl (by simpa [Block.errorInv] using hn)
    · exact launch_inv (i := .embed) rfl rfl rfl rfl rfl rfl rfl rfl (by simpa [Block.runInv, opcodeOf] using hn)
  case embedRaw =>
    rcases startEmbedRaw_cases (acceptClear (opcodeOf .embedRaw) b) with ⟨hn, h⟩ | ⟨hn, h⟩ <;> rw [h]
    · rw [launch_fail]
      exact Block.inv_of_idle rfl rfl (by simpa [Block.errorInv] using hn)
    · exact launch_inv (i := .embedRaw) rfl rfl rfl rfl rfl rfl rfl rfl
        (by simpa [Block.runInv, opcodeOf] using hn)
  case extract =>
    rcases startExtract_cases (acceptClear (opcodeOf .extract) b) with ⟨hn, h⟩ | ⟨hn, h⟩ <;> rw [h]
    · rw [launch_fail]
      exact Block.inv_of_idle rfl rfl (by simpa [Block.errorInv] using hn)
    · exact launch_inv (i := .extract) rfl rfl rfl rfl rfl rfl rfl rfl
        (by simpa [Block.runInv, opcodeOf] using hn)

/-- Every register write keeps the invariant (R40). -/
theorem WriteKind.keeps_inv {i : Nat} {d : Word} {b b' : Block} (hw : WriteKind i d b b') (h : b.inv) : b'.inv := by
  cases hw with
  | softReset => exact Block.inv_reset
  | enable => exact Block.inv_of_unobserved h _ b.cmdIgnored b.payloadLen b.sampleCount b.bitCount
  | ignored => exact Block.inv_of_unobserved h b.ie true b.payloadLen b.sampleCount b.bitCount
  | command _ _ j => exact launch_startOf_inv j b
  | illegal _ _ e hd => exact illegal_inv (legalWord_of_decode_error hd) b
  | acknowledge =>
    have hdone : Block.inv { b with done := b.done && !d.getLsbD 1 } :=
      Block.inv_of_done_le h fun hd => by rw [hd, Bool.false_and]
    exact Block.inv_of_unobserved hdone b.ie _ b.payloadLen b.sampleCount b.bitCount
  | operand p n m => exact Block.inv_of_unobserved h b.ie b.cmdIgnored p n m

/-! ### Beats -/

/-- Below `w.total` the next position does not wrap. -/
theorem pos_add_one_toNat {p total : DWord} (h : p < total) : (p + 1#64).toNat = p.toNat + 1 := by
  have hlt : p.toNat < total.toNat := h
  have := total.isLt
  rw [BitVec.toNat_add]
  exact Nat.mod_eq_of_lt (by change p.toNat + 1 < _; omega)

/-- In EXTRACT the working fields are held to the two clauses of EXTRACT alone. -/
theorem Block.runInv_of_extract {b : Block} (hx : b.w.op = opcodeOf .extract)
    (hshort : b.pos < 32#64 → b.w.total = 32#64 ∧ 32#64 ≤ b.w.n ∧ b.decodedLen = 0#32)
    (hpast : 32#64 ≤ b.pos →
      b.w.total = framedCount b.w.lenSr ∧ b.w.total ≤ b.w.n ∧ b.decodedLen = b.w.lenSr) : b.runInv :=
  fun _ => ⟨fun ho => absurd (hx.symm.trans ho) (by decide), fun ho => absurd (hx.symm.trans ho) (by decide),
    fun ho => absurd (hx.symm.trans ho) (by decide), fun _ => hshort, fun _ => hpast⟩

/-- A block that goes on running keeps the clauses on its flags and its record when `POS` advances below `w.total`
(R72). -/
theorem Block.inv_of_goes_on {b b' : Block} (h : b.inv) (hbusy : b.busy = true) (hbusy' : b'.busy = true)
    (hdone : b'.done = b.done) (hop : b'.op = b.op) (hwop : b'.w.op = b.w.op) (hcode : b'.errCode = b.errCode)
    (ha : b'.errA = b.errA) (hb : b'.errB = b.errB) (hlt : b'.pos < b'.w.total)
    (hdec : b'.decodedLen ≠ 0#32 → b'.op = opcodeOf .extract) (hrun : b'.runInv) : b'.inv := by
  obtain ⟨⟨hnotDone, hopw, hsome, hnoErr, _⟩, _, hclear, _⟩ := h
  have hcode' : b'.errCode = .noError := hcode.trans (hnoErr hbusy)
  obtain ⟨ha', hb'⟩ := hclear (hnoErr hbusy)
  refine ⟨⟨fun _ => hdone.trans (hnotDone hbusy), ?_, fun _ => ?_, fun _ => hcode', fun _ => hlt⟩, hrun,
    Block.errorInv_of_noError hcode' (ha.trans ha') (hb.trans hb') (fun hi => ?_) hdec⟩
  · rw [hop, hwop, hopw]
  · rw [hwop, hsome hbusy]
  · rw [hbusy'] at hi; cases hi

/-- The end of a beat keeps the invariant of a running block; in EXTRACT it ends the beats past the length only, since
the beat at position 31 ends with the length check instead (R72, R99). -/
theorem endBeat_keeps_inv {b : Block} (h : b.inv) (hbusy : b.busy = true)
    (hlen : b.w.op = opcodeOf .extract → 32#64 ≤ b.pos) : (endBeat b).inv := by
  have hinv := h
  obtain ⟨⟨_, hop, _, hcode, hlt⟩, hrun, hnoErr, _, _, _, _, _, _, hdec⟩ := h
  rcases endBeat_cases b with ⟨htotal, h⟩ | ⟨htotal, h⟩ <;> rw [h]
  · obtain ⟨ha, hb⟩ := hnoErr (hcode hbusy)
    exact Block.inv_of_idle rfl hop (Block.errorInv_of_noError rfl ha hb (fun _ => htotal) hdec)
  · have hnext := pos_add_one_toNat (hlt hbusy)
    have hlt' : b.pos + 1#64 < b.w.total := by
      have h1 := BitVec.lt_def.mp (hlt hbusy)
      have h2 : (b.pos + 1#64).toNat ≠ b.w.total.toNat := fun h => htotal (BitVec.eq_of_toNat_eq h)
      rw [BitVec.lt_def]; omega
    obtain ⟨hframe, hembed, hraw, _, hextract⟩ := hrun hbusy
    refine Block.inv_of_goes_on hinv hbusy hbusy rfl rfl rfl rfl rfl rfl hlt' hdec
      fun _ => ⟨hframe, hembed, hraw, fun hx hshort => ?_, fun hx _ => hextract hx (hlen hx)⟩
    have h1 : 32 ≤ b.pos.toNat := hlen hx
    have h2 : (b.pos + 1#64).toNat < 32 := hshort
    omega

/-- The EXTRACT beat below position 32 keeps the invariant: the length check either records TruncatedWatermark, or
completes, or raises `w.total` to the framed bit count, which the samples cover (R99, R100). -/
theorem lengthBeat_keeps_inv {b : Block} (h : b.inv) (hbusy : b.busy = true) (hx : b.w.op = opcodeOf .extract)
    (hk : b.pos.toNat < 32) (bit : Bit) : (lengthBeat b bit).inv := by
  have hinv := h
  obtain ⟨⟨_, hop, _, hcode, hlt⟩, hrun, hnoErr, _, _, _, _, _, _, hdec⟩ := h
  obtain ⟨_, _, _, hshort, _⟩ := hrun hbusy
  obtain ⟨htotal, hn, hdec0⟩ := hshort hx hk
  have hopx : b.op = opcodeOf .extract := hop.trans hx
  have hnext := pos_add_one_toNat (hlt hbusy)
  obtain ⟨L, _, ⟨h31, h⟩ | ⟨h31, htrunc, h⟩ | ⟨h31, _, _, h⟩ | ⟨h31, hfits, hL, h⟩⟩ := lengthBeat_cases b bit <;> rw [h]
  case inl =>
    have hlt' : (b.pos + 1#64).toNat < 32 := by omega
    refine Block.inv_of_goes_on hinv hbusy hbusy rfl rfl rfl rfl rfl rfl (htotal ▸ hlt') hdec
      (Block.runInv_of_extract hx (fun _ => ⟨htotal, hn, hdec0⟩) fun hge => ?_)
    exact absurd hge (Nat.not_le.mpr hlt')
  case inr.inl =>
    refine Block.inv_of_idle rfl hop ?_
    simpa [Block.errorInv, hopx, pos_add_one_of_toNat_eq_31 h31] using htrunc
  case inr.inr.inl =>
    obtain ⟨ha, hb⟩ := hnoErr (hcode hbusy)
    refine Block.inv_of_idle rfl hop (Block.errorInv_of_noError rfl ha hb (fun _ => ?_) fun _ => hopx)
    exact (pos_add_one_of_toNat_eq_31 h31).trans htotal.symm
  case inr.inr.inr =>
    have hpos : b.pos + 1#64 = 32#64 := pos_add_one_of_toNat_eq_31 h31
    have hlt' : b.pos + 1#64 < framedCount L := by
      have hne : L.toNat ≠ 0 := fun h0 => hL ((word_toNat_eq_zero_iff L).mp h0)
      rw [lt_framedCount_iff, hnext]; omega
    refine Block.inv_of_goes_on hinv hbusy hbusy rfl rfl rfl rfl rfl rfl hlt' (fun _ => hopx)
      (Block.runInv_of_extract hx (fun hlt32 => ?_) fun _ => ⟨rfl, hfits, rfl⟩)
    exact absurd (hpos ▸ hlt32) (BitVec.lt_irrefl _)

/-- Every beat of a running command keeps the invariant (R72). -/
theorem beatOf_keeps_inv {sw : Nat} {i : Instr} {b b' : Block} {q q' : Streams sw} (h : b.inv) (hbusy : b.busy = true)
    (hi : b.w.op = opcodeOf i) (hq : beatOf i b q = some (b', q')) : b'.inv := by
  have notExtract : i ≠ .extract → b.w.op = opcodeOf .extract → 32#64 ≤ b.pos :=
    fun hne hx => absurd (opcodeOf_injective (hi.symm.trans hx)) hne
  cases i <;> simp only [beatOf] at hq
  case frame =>
    obtain ⟨_, _, _, _, rfl, _⟩ := beatFrame_some hq
    exact endBeat_keeps_inv h hbusy (notExtract (by decide))
  case embed =>
    obtain ⟨_, _, _, _, _, _, rfl, _⟩ := beatEmbed_some hq
    exact endBeat_keeps_inv h hbusy (notExtract (by decide))
  case embedRaw =>
    obtain ⟨_, _, _, _, _, rfl, _⟩ := beatEmbedRaw_some hq
    exact endBeat_keeps_inv h hbusy (notExtract (by decide))
  case extract =>
    obtain ⟨_, _, _, ⟨hk, rfl, _⟩ | ⟨hk, rfl, _⟩⟩ := beatExtract_some hq
    · exact lengthBeat_keeps_inv h hbusy hi hk _
    · exact endBeat_keeps_inv h hbusy fun _ => hk

/-! ### Steps -/

/-- Every step of the machine of any sample width keeps the invariant. -/
theorem nextMove_keeps_inv {sw : Nat} {s t : State sw} (h : s.inv) (hstep : nextMove s = .next t) : t.inv := by
  obtain ⟨hblock, hreset⟩ := (State.inv_iff s).mp h
  cases nextMove_cases hstep with
  | quiet hb hr =>
    refine (State.inv_iff t).mpr ⟨hb ▸ hblock, fun ht => ?_⟩
    rcases hr with hr | hr
    · exact hb.trans (hreset (hr.symm.trans ht))
    · rw [ht] at hr; cases hr
  | beat i _ hb ho hq hr' _ => exact State.inv_of_released hr' (beatOf_keeps_inv hblock hb ho hq)
  | write i d _ _ _ _ hb _ hr' =>
    exact State.inv_of_released hr' ((writeKind_of_eq hb).keeps_inv hblock)
  | assertReset _ _ hb _ _ => exact (State.inv_iff t).mpr ⟨hb ▸ Block.inv_reset, fun _ => hb⟩

/-- What a step from `s` can answer: a next state, the fault of a running engine that has no command (log entry 10), or
the refusal of a register access whose index is not below 64 (R41). -/
inductive Answer {sw : Nat} (s : State sw) : Host.Outcome (State sw) Fault Refusal → Prop where
  | next (t : State sw) : Answer s (.next t)
  | fault (hb : s.block.busy = true) (ho : opcodeInstr s.block.w.op = none) (f : Fault) : Answer s (.fault f)
  | refused (i : Nat) (rest : List (Move sw)) (hi : 64 ≤ i)
      (ha : s.agenda = .read i :: rest ∨ ∃ d, s.agenda = .write i d :: rest) : Answer s (.refused (.indexOutOfRange i))

/-- A turn of the engine, from a state with the block of `s`. -/
theorem engineTurn_answer {sw : Nat} {s s' : State sw} (hb : s'.block = s.block) : Answer s (engineTurn s') := by
  rcases engineTurn_cases s' with h | ⟨_, _, _, _, _, _, _, h⟩ | ⟨_, hbusy, hnone, h⟩ <;> rw [h]
  · exact .next _
  · exact .next _
  · exact .fault (hb ▸ hbusy) (hb ▸ hnone) _

/-- What any step answers, at every sample width. -/
theorem nextMove_answer {sw : Nat} (s : State sw) : Answer s (nextMove s) := by
  cases ha : s.agenda with
  | nil => rw [nextMove, ha]; exact engineTurn_answer rfl
  | cons m rest =>
    rw [nextMove_cons ha]
    cases m with
    | engine => exact engineTurn_answer rfl
    | read i =>
      rw [runMove]
      by_cases hi : i < 64
      · rw [regRead_eq hi]; exact .next _
      · rw [regRead_illegal (Nat.not_lt.mp hi)]; exact .refused i rest (Nat.not_lt.mp hi) (.inl ha)
    | write i d =>
      rw [runMove]
      by_cases hi : i < 64
      · rw [regWrite_eq hi]; exact .next _
      · rw [regWrite_illegal (Nat.not_lt.mp hi)]; exact .refused i rest (Nat.not_lt.mp hi) (.inr ⟨d, ha⟩)
    | wait =>
      rw [runMove, waitEngine]
      split
      · exact engineTurn_answer rfl
      · exact .next _
    | waitDone =>
      rw [runMove, pollDone]
      split <;> rw [regRead_eq (by decide)] <;> exact .next _
    | offerS _ | offerP _ | offerB _ | collectS | collectP | collectB | assertReset | releaseReset => exact .next _

end Sys2Proof.Machine

namespace Sys2Proof.Proofs

open Sys2Proof Sys2Proof.Machine

/-- Settles O48, by the kinds of step (R24, R33, R72, R105, R114, R125). -/
theorem stepKeepsInvariant : Obligations.StepKeepsInvariant := fun _ _ h hstep => nextMove_keeps_inv h hstep

/-- Settles O47: the reset block meets the invariant, and the reset input is released (R126). -/
theorem resetMeetsInvariant : Obligations.ResetMeetsInvariant := State.inv_of_released rfl Block.inv_reset

/-- Settles O49: a running block that meets the invariant has an opcode in `w.op`, so its turn is no fault (R72). -/
theorem noFaultUnderInvariant : Obligations.NoFaultUnderInvariant := by
  intro s f h hfault
  obtain ⟨⟨_, _, hsome, _⟩, _⟩ := h
  have hanswer : Answer s (step s) := nextMove_answer s
  rw [hfault] at hanswer
  cases hanswer with
  | fault hb ho => rw [ho] at hsome; exact Bool.false_ne_true (hsome hb)

/-- Settles O35: an index past 63 is refused in a read and in a write, and no other answer is a refusal (R41). -/
theorem onlyIndexOutOfRangeRefused : Obligations.OnlyIndexOutOfRangeRefused := by
  constructor
  · rintro s i rest hi (ha | ⟨d, ha⟩)
    · exact (nextMove_cons ha).trans (regRead_illegal hi _)
    · exact (nextMove_cons ha).trans (regWrite_illegal hi d _)
  · intro s r hr
    have hanswer : Answer s (step s) := nextMove_answer s
    rw [hr] at hanswer
    cases hanswer with
    | refused i rest hi ha => exact ⟨i, rest, hi, rfl, ha⟩

end Sys2Proof.Proofs
end

section
/-!
The proofs of the decoder's exactness (30_encoding.md R57 to R61) and of the acceptance of a command whose operands are
legal (40_command_control.md R67, R68): the whole next state of each, what acceptance keeps, and what it forgets.
-/

namespace Sys2Proof

/-! ### Words and their fields (R57) -/

/-- A word is its reserved field above its opcode field. -/
theorem word_eq_append (d : Word) : d = rsvdField d ++ opcodeField d := by
  refine BitVec.eq_of_getLsbD_eq fun j hj => ?_
  rw [BitVec.getLsbD_append, rsvdField, opcodeField, BitVec.getLsbD_extractLsb', BitVec.getLsbD_extractLsb']
  by_cases h : j < 4
  · simp [h]
  · have h28 : j - 4 < 28 := by omega
    have hj' : 4 + (j - 4) = j := by omega
    simp [h, h28, hj']

@[simp] theorem rsvdField_encode (i : Instr) : rsvdField (encode i) = 0#28 := by cases i <;> rfl

@[simp] theorem opcodeField_encode (i : Instr) : opcodeField (encode i) = opcodeOf i := by cases i <;> rfl

/-- The decoder reads the whole word: a word decodes to a command exactly when it is the command's word (R57 to R59). -/
theorem decode_eq_ok_iff_eq_encode (d : Word) (i : Instr) : decode d = .ok i ↔ d = encode i := by
  rw [decode_eq_ok_iff]
  constructor
  · rintro ⟨hr, ho⟩
    rw [word_eq_append d, hr, ho, encode]
  · rintro rfl
    exact ⟨rsvdField_encode i, opcodeField_encode i⟩

theorem decode_encode (i : Instr) : decode (encode i) = .ok i := (decode_eq_ok_iff_eq_encode _ i).mpr rfl

/-- The opcode table numbers the bits of a 32-bit word as the word does. -/
theorem wordOfTable_toNat (d : Word) : wordOfTable 32 d.toNat = d := by
  rw [wordOfTable, Nat.mod_eq_of_lt d.isLt, BitVec.ofNat_toNat, BitVec.setWidth_eq]

/-- What the table's decoder answers is the answer of the decoder for the word laid out from the table. -/
theorem decodeTableWord_eq_some_iff (nbits w : Nat) (i : Instr) :
    decodeTableWord nbits w = some i ↔ nbits ≤ 32 ∧ decode (wordOfTable nbits w) = .ok i := by
  rw [decodeTableWord]
  by_cases h : 32 < nbits
  · rw [if_pos h]; simp [h]
  · rw [if_neg h]
    cases decode (wordOfTable nbits w) <;> simp [Nat.not_lt.mp h]

end Sys2Proof

namespace Sys2Proof.Machine

/-! ### A command word as a move -/

/-- A legal command word written to `CMD` is the command (R22, R67). -/
theorem cmdWrite_legal {sw : Nat} {d : Word} {i : Instr} (hd : decode d = .ok i) (s : State sw) :
    cmdWrite d s = execAt i s := by
  rw [cmdWrite, hd]

/-! ### Start parts whose checks pass (R79, R87, R91, R98) -/

/-- The framed bit count of a payload length below 2^32, as the number `32 + 8 * L` (R9). -/
theorem framedCount_loWord_eq_ofNat {x : DWord} (h : x.toNat < 2 ^ 32) :
    framedCount (loWord x) = BitVec.ofNat 64 (32 + 8 * x.toNat) := by
  rw [framedCount_eq_ofNat, loWord_toNat, Nat.mod_eq_of_lt h]

theorem loWord_eq_setWidth (x : DWord) : loWord x = x.setWidth 32 :=
  BitVec.eq_of_toNat_eq (by rw [loWord_toNat, BitVec.toNat_setWidth])

theorem startFrame_of_legal {b : Block} (h : b.payloadLen.toNat < 2 ^ 32) :
    startFrame b =
      { b with w := { b.w with len := loWord b.payloadLen, total := framedCount (loWord b.payloadLen) } } := by
  rcases startFrame_cases b with ⟨hge, _⟩ | ⟨_, hstart⟩
  · exact absurd h (Nat.not_lt.mpr hge)
  · exact hstart

theorem startEmbed_of_legal {b : Block} (hlen : b.payloadLen.toNat < 2 ^ 32)
    (hn : 32 + 8 * b.payloadLen.toNat ≤ b.sampleCount.toNat) :
    startEmbed b = { b with w := { b.w with
      len := loWord b.payloadLen, nbits := framedCount (loWord b.payloadLen), n := b.sampleCount,
      total := b.sampleCount } } := by
  rcases startEmbed_cases b with ⟨hge, _⟩ | ⟨_, hlt, _⟩ | ⟨_, _, hstart⟩
  · exact absurd hlen (Nat.not_lt.mpr hge)
  · exact absurd ((lt_framedCount_loWord_iff hlen _).mp hlt) (Nat.not_lt.mpr hn)
  · exact hstart

theorem startEmbedRaw_of_legal {b : Block} (h : b.bitCount ≤ b.sampleCount) :
    startEmbedRaw b =
      { b with w := { b.w with nbits := b.bitCount, n := b.sampleCount, total := b.sampleCount } } := by
  rcases startEmbedRaw_cases b with ⟨hlt, _⟩ | ⟨_, hstart⟩
  · exact absurd h (BitVec.not_le.mpr hlt)
  · exact hstart

theorem startExtract_of_legal {b : Block} (h : 32#64 ≤ b.sampleCount) :
    startExtract b = { b with w := { b.w with n := b.sampleCount, total := 32#64 } } := by
  rcases startExtract_cases b with ⟨hlt, _⟩ | ⟨_, hstart⟩
  · exact absurd h (BitVec.not_le.mpr hlt)
  · exact hstart

/-- A start part that passed its checks and has a beat to take leaves a busy block (R68). -/
theorem launch_of_total_ne_zero {b : Block} (hdone : b.done = false) (htotal : b.w.total ≠ 0#64) :
    launch b = { b with busy := true } := by
  rw [launch, hdone, if_neg Bool.false_ne_true, if_neg htotal]

/-- A start part that passed its checks and has no beat to take completes at once (R68). -/
theorem launch_of_total_eq_zero {b : Block} (hdone : b.done = false) (htotal : b.w.total = 0#64) :
    launch b = complete .noError b := by
  rw [launch, hdone, if_neg Bool.false_ne_true, if_pos htotal]

/-- A command whose checks pass and which has a beat to take is busy after acceptance (R67, R68). -/
theorem exec_of_start_runs {s : State} (i : Instr) {b : Block} (hs : s.ready)
    (hstart : startOf i (acceptClear (opcodeOf i) s.block) = b) (hdone : b.done = false) (htotal : b.w.total ≠ 0#64) :
    exec i s = .next (s.withBlock { b with busy := true }) := by
  obtain ⟨hr, hb⟩ := hs
  rw [exec_ready hr hb, hstart, launch_of_total_ne_zero hdone htotal]

/-- A command whose checks pass and which has no beat to take is done at acceptance (R67, R68). -/
theorem exec_of_start_completes {s : State} (i : Instr) {b : Block} (hs : s.ready)
    (hstart : startOf i (acceptClear (opcodeOf i) s.block) = b) (hdone : b.done = false) (htotal : b.w.total = 0#64) :
    exec i s = .next (s.withBlock (complete .noError b)) := by
  obtain ⟨hr, hb⟩ := hs
  rw [exec_ready hr hb, hstart, launch_of_total_eq_zero hdone htotal]

/-- A 64-bit count that is at least a positive number is not 0. -/
theorem dword_ne_zero_of_le {x : DWord} {n : Nat} (hn : 0 < n) (h : n ≤ x.toNat) : x ≠ 0#64 := by
  rintro rfl
  exact absurd (Nat.lt_of_lt_of_le hn h) (Nat.lt_irrefl 0)

/-! ### What acceptance keeps and forgets (R67, R82) -/

/-- What is accepted depends on `IE` and the operand registers alone, for two idle blocks. -/
theorem acceptClear_congr {b b' : Block} (op : Opcode) (hbusy : b'.busy = b.busy) (hie : b'.ie = b.ie)
    (hp : b'.payloadLen = b.payloadLen) (hn : b'.sampleCount = b.sampleCount) (hm : b'.bitCount = b.bitCount) :
    acceptClear op b' = acceptClear op b := by
  simp only [acceptClear, hbusy, hie, hp, hn, hm]

/-- A command word keeps `IE` and the operand registers, whether it is accepted or ignored (R67, R70). -/
theorem acceptCommand_keeps (i : Instr) (b : Block) :
    (acceptCommand (opcodeOf i) (startOf i) b).ie = b.ie ∧
    (acceptCommand (opcodeOf i) (startOf i) b).payloadLen = b.payloadLen ∧
    (acceptCommand (opcodeOf i) (startOf i) b).sampleCount = b.sampleCount ∧
    (acceptCommand (opcodeOf i) (startOf i) b).bitCount = b.bitCount := by
  cases hb : b.busy
  · rw [acceptCommand_idle hb]
    obtain ⟨hie, hp, hn, hm, _⟩ := launch_frame (startOf i (acceptClear (opcodeOf i) b))
    obtain ⟨hie', hp', hn', hm', _⟩ := startOf_keeps i (acceptClear (opcodeOf i) b)
    exact ⟨hie.trans hie', hp.trans hp', hn.trans hn', hm.trans hm'⟩
  · rw [acceptCommand_busy hb]
    exact ⟨rfl, rfl, rfl, rfl⟩

end Sys2Proof.Machine

namespace Sys2Proof.Proofs

open Sys2Proof Sys2Proof.Machine

/-! ### The decoder -/

/-- Settles O3: the reserved field and the opcode field are the whole word (R57). -/
theorem decodeExactlyEncodings : Obligations.DecodeExactlyEncodings := decode_eq_ok_iff_eq_encode

/-- Settles O1: nine closed words (R58, R59). -/
theorem commandWordsDecode : Obligations.CommandWordsDecode := by
  unfold Obligations.CommandWordsDecode
  decide

/-- Settles O2: the decoder is exact, and the table numbers the bits as the word does (R57, R58). -/
theorem decodeOfEncode : Obligations.DecodeOfEncode := by
  intro i
  refine ⟨decode_encode i, (decodeTableWord_eq_some_iff 32 _ i).mpr ⟨le_rfl, ?_⟩⟩
  rw [wordOfTable_toNat, decode_encode]

/-- Settles O5: the pending write is `cmdWrite` of the word, which the decoder turns into the command (R22, R67). -/
theorem stepRunsDecodedCommand : Obligations.StepRunsDecodedCommand := by
  have writes : ∀ (s : State) (d : Word) (rest : List Move) (i : Instr),
      s.agenda = .write 2 d :: rest → decode d = .ok i → step s = exec i (s.withAgenda rest) := by
    intro s d rest i ha hd
    have hstep : step s = cmdWrite d (s.withAgenda rest) := nextMove_cons ha
    rw [hstep, cmdWrite_legal hd, exec_eq_execAt]
  refine ⟨writes, fun s nbits w i hi => ?_⟩
  obtain ⟨_, hd⟩ := (decodeTableWord_eq_some_iff nbits w i).mp hi
  exact writes (s.withFetchWord nbits w) (wordOfTable nbits w) s.agenda i rfl hd

/-! ### Acceptance -/

/-- Settles O6: the length check passes, and the framed bit count is not 0 (R79). -/
theorem frameStarts : Obligations.FrameStarts := by
  intro s hs hlen
  rw [exec_of_start_runs .frame hs (startFrame_of_legal hlen) rfl (framedCount_ne_zero _), acceptClear_payloadLen,
    framedCount_loWord_eq_ofNat hlen, loWord_eq_setWidth]
  rfl

/-- Settles O7: both checks pass, and the sample count is at least the framed bit count, so not 0 (R87). -/
theorem embedStarts : Obligations.EmbedStarts := by
  intro s hs hlen hn
  have htotal : s.block.sampleCount ≠ 0#64 := dword_ne_zero_of_le (by omega) hn
  rw [exec_of_start_runs .embed hs (startEmbed_of_legal hlen hn) rfl htotal, acceptClear_payloadLen,
    framedCount_loWord_eq_ofNat hlen, loWord_eq_setWidth]
  rfl

/-- Settles O8: the check passes, and the command has a beat to take exactly when there is a sample (R68, R91). -/
theorem embedRawStartsOrCompletes : Obligations.EmbedRawStartsOrCompletes := by
  intro s hs hn
  by_cases h0 : s.block.sampleCount.toNat = 0
  · have htotal : s.block.sampleCount = 0#64 := BitVec.eq_of_toNat_eq h0
    rw [exec_of_start_completes .embedRaw hs (startEmbedRaw_of_legal hn) rfl htotal, decide_eq_true h0,
      decide_eq_false (not_not.mpr h0)]
    rfl
  · have htotal : s.block.sampleCount ≠ 0#64 := dword_ne_zero_of_le Nat.one_pos (Nat.one_le_iff_ne_zero.mpr h0)
    rw [exec_of_start_runs .embedRaw hs (startEmbedRaw_of_legal hn) rfl htotal, decide_eq_false h0, decide_eq_true h0]
    rfl

/-- Settles O9: the check passes, and the command has 32 beats to begin with (R98). -/
theorem extractStarts : Obligations.ExtractStarts := by
  intro s hs hn
  have htotal : 32#64 ≠ 0#64 := by decide
  rw [exec_of_start_runs .extract hs (startExtract_of_legal hn) rfl htotal]
  rfl

/-- Settles O15: a command word changes the block alone, and in the block neither `IE` nor an operand (R67, R125). -/
theorem commandWordFrame : Obligations.CommandWordFrame := by
  intro i s
  refine ⟨_, exec_eq i s, State.onBlock_streams .., State.onBlock_rst .., State.onBlock_agenda ..,
    State.onBlock_seen .., ?_⟩
  cases hr : s.rst
  · rw [State.onBlock_released hr, State.withBlock_block]
    obtain ⟨hie, hp, hn, hm⟩ := acceptCommand_keeps i s.block
    exact ⟨hie, hp, hn, hm, fun h => nomatch h⟩
  · rw [State.onBlock_asserted hr]
    exact ⟨rfl, rfl, rfl, rfl, fun _ => rfl⟩

/-- Settles O16: what acceptance clears is all that the two blocks may differ in (R33, R67). -/
theorem acceptanceForgetsEarlierCommands : Obligations.AcceptanceForgetsEarlierCommands := by
  rintro i s s' ⟨hr, hb⟩ ⟨hr', hb'⟩ hie hp hn hm
  refine ⟨_, exec_ready hr hb i, ?_⟩
  rw [exec_ready hr' hb' i, acceptClear_congr _ (hb'.trans hb.symm) hie hp hn hm]

/-- Settles O17: a command that is done is idle again with the same operands, so it is accepted as before (R115). -/
theorem rejectedCommandFailsAgain : Obligations.RejectedCommandFailsAgain := by
  rintro i s t ⟨hr, hb⟩ hexec hdone
  have hblock : t = s.withBlock (launch (startOf i (acceptClear (opcodeOf i) s.block))) := by
    rw [exec_ready hr hb] at hexec
    exact (Host.Outcome.next.inj hexec).symm
  have hidle : t.block.busy = false := by
    rw [hblock] at hdone ⊢
    rcases launch_startOf_flags i hb with ⟨_, hnotDone⟩ | ⟨hidle, _⟩
    · exact absurd (hnotDone.symm.trans hdone) Bool.false_ne_true
    · exact hidle
  obtain ⟨t', hexec', _, hrst, _, _, hie, hp, hn, hm, _⟩ := commandWordFrame i s
  obtain rfl : t = t' := Host.Outcome.next.inj (hexec.symm.trans hexec')
  rw [exec_ready (hrst.trans hr) hidle, acceptClear_congr _ (hidle.trans hb.symm) hie hp hn hm]
  rw [hblock]
  rfl

end Sys2Proof.Proofs
end

section
/-!
The proofs about beats (40_command_control.md R72, 42_embedder.md R92, 43_extractor.md R99): the beats of EMBED_RAW and
of EXTRACT past the length, when a beat waits, how many items it moves, what it leaves unchanged, and which beat records
an error.
-/

namespace Sys2Proof.Machine

/-! ### When a beat waits (R45) -/

/-- There is no framer's bit exactly at the first bit of a byte while `P_IN` is empty (R80, R88). -/
theorem framerBit_eq_none_iff (b : Block) (pIn : List Byte) :
    framerBit b pIn = none ↔ 32 ≤ b.pos.toNat ∧ (b.pos.toNat - 32) % 8 = 0 ∧ pIn = [] := by
  constructor
  · intro hnone
    rcases framerBit_cases b pIn with ⟨_, h⟩ | ⟨hk, hj, hp, _⟩ | ⟨_, _, _, _, _, h⟩ | ⟨_, _, h⟩
    · rw [h] at hnone; cases hnone
    · exact ⟨hk, hj, hp⟩
    · rw [h] at hnone; cases hnone
    · rw [h] at hnone; cases hnone
  · rintro ⟨hk, hj, rfl⟩
    exact framerBit_newByte_nil hk hj

theorem beatFrame_eq_none_iff {sw : Nat} (b : Block) (q : Streams sw) :
    beatFrame b q = none ↔ framerBit b q.pIn = none := by
  rw [beatFrame]
  cases framerBit b q.pIn <;> simp

theorem beatEmbed_eq_none_iff {sw : Nat} (b : Block) (q : Streams sw) :
    beatEmbed b q = none ↔ q.sIn = [] ∨ (b.pos < b.w.nbits ∧ framerBit b q.pIn = none) := by
  rw [beatEmbed]
  cases q.sIn with
  | nil => simp
  | cons x rest =>
    by_cases hk : b.pos < b.w.nbits
    · cases framerBit b q.pIn <;> simp [hk]
    · simp [hk]

theorem beatEmbedRaw_eq_none_iff {sw : Nat} (b : Block) (q : Streams sw) :
    beatEmbedRaw b q = none ↔ q.sIn = [] ∨ (b.pos < b.w.nbits ∧ q.bIn = []) := by
  rw [beatEmbedRaw]
  cases q.sIn with
  | nil => simp
  | cons x rest =>
    by_cases hk : b.pos < b.w.nbits
    · cases q.bIn <;> simp [hk]
    · simp [hk]

theorem beatExtract_eq_none_iff {sw : Nat} (b : Block) (q : Streams sw) : beatExtract b q = none ↔ q.sIn = [] := by
  rw [beatExtract]
  cases q.sIn with
  | nil => simp
  | cons x rest => by_cases hk : b.pos.toNat < 32 <;> simp [hk]

/-- A running command's beat is not enabled exactly when it answers nothing (R45). -/
theorem beatEnabled_eq_false_iff {sw : Nat} {s : State sw} {i : Instr} (hrun : s.running i) :
    beatEnabled s = false ↔ beatOf i s.block s.streams = none := by
  obtain ⟨hr, hb, ho⟩ := hrun
  rw [beatEnabled_running hr hb ho, Option.isSome_eq_false_iff, Option.isNone_iff_eq_none]

/-! ### The beats as equations (R80, R88, R92, R99) -/

/-- The FRAME beat is the framer's bit, given on `B_OUT`. -/
theorem beatFrame_eq {sw : Nat} (b : Block) (q : Streams sw) :
    beatFrame b q =
      (framerBit b q.pIn).map fun r => (endBeat r.2.1, { q with pIn := r.2.2, bOut := q.bOut ++ [r.1] }) := by
  rw [beatFrame]
  cases framerBit b q.pIn <;> rfl

theorem beatEmbed_nil {sw : Nat} {q : Streams sw} (b : Block) (hs : q.sIn = []) : beatEmbed b q = none :=
  (beatEmbed_eq_none_iff b q).mpr (.inl hs)

theorem beatEmbed_past {sw : Nat} {b : Block} {q : Streams sw} {x : BitVec sw} {rest : List (BitVec sw)}
    (hs : q.sIn = x :: rest) (hk : ¬ b.pos < b.w.nbits) :
    beatEmbed b q = some (endBeat b, { q with sIn := rest, sOut := q.sOut ++ [x] }) := by
  rw [beatEmbed, hs]
  exact if_neg hk

/-- Before the end of the framed bits the EMBED beat is the framer's bit, put into the sample. -/
theorem beatEmbed_bit {sw : Nat} {b : Block} {q : Streams sw} {x : BitVec sw} {rest : List (BitVec sw)}
    (hs : q.sIn = x :: rest) (hk : b.pos < b.w.nbits) :
    beatEmbed b q = (framerBit b q.pIn).map fun r =>
      (endBeat r.2.1, { q with sIn := rest, pIn := r.2.2, sOut := q.sOut ++ [setLsb x r.1] }) := by
  rw [beatEmbed, hs]
  simp only [if_pos hk]
  cases framerBit b q.pIn <;> rfl

theorem beatEmbedRaw_nil {sw : Nat} {q : Streams sw} (b : Block) (hs : q.sIn = []) : beatEmbedRaw b q = none :=
  (beatEmbedRaw_eq_none_iff b q).mpr (.inl hs)

theorem beatEmbedRaw_past {sw : Nat} {b : Block} {q : Streams sw} {x : BitVec sw} {rest : List (BitVec sw)}
    (hs : q.sIn = x :: rest) (hk : ¬ b.pos < b.w.nbits) :
    beatEmbedRaw b q = some (endBeat b, { q with sIn := rest, sOut := q.sOut ++ [x] }) := by
  rw [beatEmbedRaw, hs]
  exact if_neg hk

theorem beatEmbedRaw_noBit {sw : Nat} {b : Block} {q : Streams sw} (hk : b.pos < b.w.nbits) (hbits : q.bIn = []) :
    beatEmbedRaw b q = none :=
  (beatEmbedRaw_eq_none_iff b q).mpr (.inr ⟨hk, hbits⟩)

theorem beatEmbedRaw_bit {sw : Nat} {b : Block} {q : Streams sw} {x : BitVec sw} {rest : List (BitVec sw)} {bit : Bit}
    {bRest : List Bit} (hs : q.sIn = x :: rest) (hk : b.pos < b.w.nbits) (hbits : q.bIn = bit :: bRest) :
    beatEmbedRaw b q =
      some (endBeat b, { q with sIn := rest, bIn := bRest, sOut := q.sOut ++ [setLsb x bit] }) := by
  rw [beatEmbedRaw, hs]
  simp only [if_pos hk, hbits]

theorem beatExtract_nil {sw : Nat} {q : Streams sw} (b : Block) (hs : q.sIn = []) : beatExtract b q = none :=
  (beatExtract_eq_none_iff b q).mpr hs

theorem beatExtract_length {sw : Nat} {b : Block} {q : Streams sw} {x : BitVec sw} {rest : List (BitVec sw)}
    (hs : q.sIn = x :: rest) (hk : b.pos.toNat < 32) :
    beatExtract b q = some (lengthBeat b (lsb x), { q with sIn := rest }) := by
  rw [beatExtract, hs]
  exact if_pos hk

theorem beatExtract_payload {sw : Nat} {b : Block} {q : Streams sw} {x : BitVec sw} {rest : List (BitVec sw)}
    (hs : q.sIn = x :: rest) (hk : ¬ b.pos.toNat < 32) :
    beatExtract b q = some (endBeat { b with w := { b.w with byteSr := payloadByte b (lsb x) } },
      { q with
        sIn := rest,
        pOut := if (b.pos.toNat - 32) % 8 = 7 then q.pOut ++ [payloadByte b (lsb x)] else q.pOut }) := by
  rw [beatExtract, hs]
  exact if_neg hk

/-! ### The turns of EMBED_RAW and of EXTRACT past the length (R92, R99) -/

/-- Without a sample the EMBED_RAW beat is not enabled, and the turn changes nothing. -/
theorem engineTurn_embedRaw_noSample {sw : Nat} {s : State sw} (hrun : s.running .embedRaw) (hs : s.streams.sIn = []) :
    engineTurn s = .next s :=
  engineTurn_running_wait hrun (beatEmbedRaw_nil s.block hs)

/-- Past `w.nbits` the EMBED_RAW beat passes the sample through and ends with `endBeat`. -/
theorem engineTurn_embedRaw_passThrough {sw : Nat} {s : State sw} {x : BitVec sw} {rest : List (BitVec sw)}
    (hrun : s.running .embedRaw) (hs : s.streams.sIn = x :: rest) (hk : s.block.w.nbits.toNat ≤ s.block.pos.toNat) :
    engineTurn s = .next ((s.withBlock (endBeat s.block)).withStreams
      { s.streams with sIn := rest, sOut := s.streams.sOut ++ [x] }) :=
  engineTurn_running_beat hrun (beatEmbedRaw_past hs (Nat.not_lt.mpr hk))

/-- Before `w.nbits` and without a bit the EMBED_RAW beat takes no sample: the turn changes nothing. -/
theorem engineTurn_embedRaw_noBit {sw : Nat} {s : State sw} (hrun : s.running .embedRaw)
    (hk : s.block.pos.toNat < s.block.w.nbits.toNat) (hbits : s.streams.bIn = []) : engineTurn s = .next s :=
  engineTurn_running_wait hrun (beatEmbedRaw_noBit hk hbits)

/-- Before `w.nbits` the EMBED_RAW beat puts the head of `B_IN` into the sample and ends with `endBeat`. -/
theorem engineTurn_embedRaw_beat {sw : Nat} {s : State sw} {x : BitVec sw} {rest : List (BitVec sw)} {bit : Bit}
    {bRest : List Bit} (hrun : s.running .embedRaw) (hs : s.streams.sIn = x :: rest)
    (hk : s.block.pos.toNat < s.block.w.nbits.toNat) (hbits : s.streams.bIn = bit :: bRest) :
    engineTurn s = .next ((s.withBlock (endBeat s.block)).withStreams
      { s.streams with sIn := rest, bIn := bRest, sOut := s.streams.sOut ++ [setLsb x bit] }) :=
  engineTurn_running_beat hrun (beatEmbedRaw_bit hs hk hbits)

/-- From position 32 on the EXTRACT beat writes the sample's bit 0 into `w.byte_sr`, gives the byte at its bit 7 and
ends with `endBeat`. -/
theorem engineTurn_extract_payloadBeat {sw : Nat} {s : State sw} {x : BitVec sw} {rest : List (BitVec sw)}
    (hrun : s.running .extract) (hs : s.streams.sIn = x :: rest) (hk : 32 ≤ s.block.pos.toNat) :
    engineTurn s = .next ((s.withBlock
        (endBeat { s.block with w := { s.block.w with byteSr := payloadByte s.block (lsb x) } })).withStreams
      { s.streams with
        sIn := rest,
        pOut := if (s.block.pos.toNat - 32) % 8 = 7 then s.streams.pOut ++ [payloadByte s.block (lsb x)]
          else s.streams.pOut }) :=
  engineTurn_running_beat hrun (beatExtract_payload hs (Nat.not_lt.mpr hk))

/-! ### Items moved by a beat (R14, R46) -/

/-- An input queue has lost at most its head. -/
def TakesAtMostOne {α : Type} (before after : List α) : Prop := ∃ xs, xs.length ≤ 1 ∧ before = xs ++ after

/-- An output queue has gained at most one item, at its end. -/
def GivesAtMostOne {α : Type} (before after : List α) : Prop := ∃ ys, ys.length ≤ 1 ∧ after = before ++ ys

theorem TakesAtMostOne.refl {α : Type} (q : List α) : TakesAtMostOne q q := ⟨[], Nat.zero_le 1, rfl⟩

theorem TakesAtMostOne.head {α : Type} {x : α} {q rest : List α} (h : q = x :: rest) : TakesAtMostOne q rest :=
  ⟨[x], le_rfl, h⟩

theorem GivesAtMostOne.refl {α : Type} (q : List α) : GivesAtMostOne q q :=
  ⟨[], Nat.zero_le 1, (List.append_nil q).symm⟩

theorem GivesAtMostOne.item {α : Type} (q : List α) (x : α) : GivesAtMostOne q (q ++ [x]) := ⟨[x], le_rfl, rfl⟩

/-- At most one item is moved at each of the six queues, and only in its own direction. -/
def Streams.MovesAtMostOne {sw : Nat} (q q' : Streams sw) : Prop :=
  TakesAtMostOne q.sIn q'.sIn ∧ TakesAtMostOne q.pIn q'.pIn ∧ TakesAtMostOne q.bIn q'.bIn ∧
  GivesAtMostOne q.sOut q'.sOut ∧ GivesAtMostOne q.pOut q'.pOut ∧ GivesAtMostOne q.bOut q'.bOut

/-- Every beat moves at most one item at each queue (R14). -/
theorem beatOf_movesAtMostOne {sw : Nat} {i : Instr} {b b' : Block} {q q' : Streams sw}
    (h : beatOf i b q = some (b', q')) : q.MovesAtMostOne q' := by
  cases i <;> simp only [beatOf] at h
  case frame =>
    obtain ⟨_, took, _, _, _, hp, hl, rfl⟩ := beatFrame_some h
    exact ⟨.refl _, ⟨took, hl, hp⟩, .refl _, .refl _, .refl _, .item _ _⟩
  case embed =>
    obtain ⟨_, took, _, _, _, _, _, hp, hl, hs, rfl⟩ := beatEmbed_some h
    exact ⟨.head hs, ⟨took, hl, hp⟩, .refl _, .item _ _, .refl _, .refl _⟩
  case embedRaw =>
    obtain ⟨took, _, _, _, _, _, hbits, hl, hs, rfl⟩ := beatEmbedRaw_some h
    exact ⟨.head hs, .refl _, ⟨took, hl, hbits⟩, .item _ _, .refl _, .refl _⟩
  case extract =>
    obtain ⟨_, _, hs, ⟨_, _, rfl⟩ | ⟨_, _, rfl⟩⟩ := beatExtract_some h
    · exact ⟨.head hs, .refl _, .refl _, .refl _, .refl _, .refl _⟩
    · refine ⟨.head hs, .refl _, .refl _, .refl _, ?_, .refl _⟩
      change GivesAtMostOne q.pOut (ite _ _ _)
      split
      · exact .item _ _
      · exact .refl _

/-! ### What a beat leaves unchanged (R34, R36) -/

/-- What no beat changes in the block: `IE`, `CMD_IGNORED`, `OP`, the operand registers, and the latched fields. -/
def Block.SameLatched (b b' : Block) : Prop :=
  b'.ie = b.ie ∧ b'.cmdIgnored = b.cmdIgnored ∧ b'.op = b.op ∧ b'.payloadLen = b.payloadLen ∧
  b'.sampleCount = b.sampleCount ∧ b'.bitCount = b.bitCount ∧ b'.w.op = b.w.op ∧ b'.w.len = b.w.len ∧
  b'.w.n = b.w.n ∧ b'.w.nbits = b.w.nbits

/-- What the beats of EXTRACT alone change in the block: `DECODED_LEN`, `w.len_sr`, `w.total` and the diagnostics. -/
def Block.SameDecoded (b b' : Block) : Prop :=
  b'.decodedLen = b.decodedLen ∧ b'.w.lenSr = b.w.lenSr ∧ b'.w.total = b.w.total ∧ b'.errA = b.errA ∧ b'.errB = b.errB

/-- The end of a beat, with another byte held, changes nothing that is latched or decoded (R72). -/
theorem endBeat_sameLatched (b : Block) (byteSr : Byte) :
    b.SameLatched (endBeat { b with w := { b.w with byteSr := byteSr } }) ∧
    b.SameDecoded (endBeat { b with w := { b.w with byteSr := byteSr } }) := by
  rcases endBeat_cases { b with w := { b.w with byteSr := byteSr } } with ⟨_, h⟩ | ⟨_, h⟩ <;> rw [h] <;>
    exact ⟨⟨rfl, rfl, rfl, rfl, rfl, rfl, rfl, rfl, rfl, rfl⟩, rfl, rfl, rfl, rfl, rfl⟩

/-- A length beat changes nothing that is latched (R99, R100). -/
theorem lengthBeat_sameLatched (b : Block) (bit : Bit) : b.SameLatched (lengthBeat b bit) := by
  obtain ⟨L, _, ⟨_, h⟩ | ⟨_, _, h⟩ | ⟨_, _, _, h⟩ | ⟨_, _, _, h⟩⟩ := lengthBeat_cases b bit <;> rw [h] <;>
    exact ⟨rfl, rfl, rfl, rfl, rfl, rfl, rfl, rfl, rfl, rfl⟩

/-- The block of a beat that is no length beat of EXTRACT: the end of a beat, with some byte held (R80, R88, R92,
R99). -/
theorem beatOf_block {sw : Nat} {i : Instr} {b b' : Block} {q q' : Streams sw} (h : beatOf i b q = some (b', q')) :
    (∃ byteSr, b' = endBeat { b with w := { b.w with byteSr := byteSr } }) ∨
    (i = .extract ∧ b.pos.toNat < 32 ∧ ∃ x rest, q.sIn = x :: rest ∧ b' = lengthBeat b (lsb x) ∧
      q' = { q with sIn := rest }) := by
  cases i <;> simp only [beatOf] at h
  case frame => obtain ⟨byteSr, _, _, _, hb, _⟩ := beatFrame_some h; exact .inl ⟨byteSr, hb⟩
  case embed => obtain ⟨byteSr, _, _, _, _, _, hb, _⟩ := beatEmbed_some h; exact .inl ⟨byteSr, hb⟩
  case embedRaw => obtain ⟨_, _, _, _, _, hb, _⟩ := beatEmbedRaw_some h; exact .inl ⟨b.w.byteSr, hb⟩
  case extract =>
    obtain ⟨x, rest, hs, ⟨hk, hb, hq⟩ | ⟨_, hb, _⟩⟩ := beatExtract_some h
    · exact .inr ⟨rfl, hk, x, rest, hs, hb, hq⟩
    · exact .inl ⟨_, hb⟩

/-- Every beat keeps what is latched, and every beat but those of EXTRACT what is decoded. -/
theorem beatOf_keeps {sw : Nat} {i : Instr} {b b' : Block} {q q' : Streams sw} (h : beatOf i b q = some (b', q')) :
    b.SameLatched b' ∧ (i ≠ .extract → b.SameDecoded b') := by
  rcases beatOf_block h with ⟨byteSr, rfl⟩ | ⟨rfl, _, x, _, _, rfl, _⟩
  · obtain ⟨hlatched, hdecoded⟩ := endBeat_sameLatched b byteSr
    exact ⟨hlatched, fun _ => hdecoded⟩
  · exact ⟨lengthBeat_sameLatched b _, fun hx => absurd rfl hx⟩

/-- A beat leaves the queues its command does not use as they are (R34). -/
def Streams.SameUnused {sw : Nat} (i : Instr) (q q' : Streams sw) : Prop :=
  (i ≠ .embed ∧ i ≠ .embedRaw ∧ i ≠ .extract → q'.sIn = q.sIn) ∧
  (i ≠ .embed ∧ i ≠ .embedRaw → q'.sOut = q.sOut) ∧
  (i ≠ .frame ∧ i ≠ .embed → q'.pIn = q.pIn) ∧
  (i ≠ .extract → q'.pOut = q.pOut) ∧
  (i ≠ .embedRaw → q'.bIn = q.bIn) ∧
  (i ≠ .frame → q'.bOut = q.bOut)

theorem beatOf_sameUnused {sw : Nat} {i : Instr} {b b' : Block} {q q' : Streams sw}
    (h : beatOf i b q = some (b', q')) : q.SameUnused i q' := by
  cases i <;> simp only [beatOf] at h
  case frame =>
    obtain ⟨_, _, _, _, _, _, _, rfl⟩ := beatFrame_some h
    exact ⟨fun _ => rfl, fun _ => rfl, fun hi => absurd rfl hi.1, fun _ => rfl, fun _ => rfl, fun hi => absurd rfl hi⟩
  case embed =>
    obtain ⟨_, _, _, _, _, _, _, _, _, _, rfl⟩ := beatEmbed_some h
    exact ⟨fun hi => absurd rfl hi.1, fun hi => absurd rfl hi.1, fun hi => absurd rfl hi.2, fun _ => rfl, fun _ => rfl,
      fun _ => rfl⟩
  case embedRaw =>
    obtain ⟨_, _, _, _, _, _, _, _, _, rfl⟩ := beatEmbedRaw_some h
    exact ⟨fun hi => absurd rfl hi.2.1, fun hi => absurd rfl hi.2, fun _ => rfl, fun _ => rfl, fun hi => absurd rfl hi,
      fun _ => rfl⟩
  case extract =>
    obtain ⟨_, _, _, ⟨_, _, rfl⟩ | ⟨_, _, rfl⟩⟩ := beatExtract_some h <;>
      exact ⟨fun hi => absurd rfl hi.2.2, fun _ => rfl, fun _ => rfl, fun hi => absurd rfl hi, fun _ => rfl,
        fun _ => rfl⟩

/-! ### Which steps record an error (R106 to R111) -/

/-- A beat changes `ERR_CODE` to an error only in EXTRACT at position 31, to TruncatedWatermark, and gives nothing then
(R100). -/
theorem beatOf_errCode {sw : Nat} {i : Instr} {b b' : Block} {q q' : Streams sw} (h : beatOf i b q = some (b', q')) :
    b'.errCode = b.errCode ∨ b'.errCode = .noError ∨
    (i = .extract ∧ b.pos.toNat = 31 ∧ b'.errCode = .truncatedWatermark ∧ b'.pos = 32#64 ∧
      ∃ rest, q' = { q with sIn := rest }) := by
  rcases beatOf_block h with ⟨byteSr, rfl⟩ | ⟨hi, _, x, rest, _, rfl, hq⟩
  · rcases endBeat_cases { b with w := { b.w with byteSr := byteSr } } with ⟨_, h⟩ | ⟨_, h⟩ <;> rw [h]
    · exact .inr (.inl rfl)
    · exact .inl rfl
  · obtain ⟨L, _, ⟨_, h⟩ | ⟨h31, _, h⟩ | ⟨_, _, _, h⟩ | ⟨_, _, _, h⟩⟩ := lengthBeat_cases b (lsb x) <;> rw [h]
    · exact .inl rfl
    · exact .inr (.inr ⟨hi, h31, rfl, pos_add_one_of_toNat_eq_31 h31, rest, hq⟩)
    · exact .inr (.inl rfl)
    · exact .inl rfl

/-- No acceptance of a command records TruncatedWatermark (R79, R87, R91, R98). -/
theorem launch_startOf_errCode (i : Instr) (b : Block) :
    (launch (startOf i (acceptClear (opcodeOf i) b))).errCode ≠ .truncatedWatermark := by
  have launched : ∀ c : Block, c.errCode ≠ .truncatedWatermark → (launch c).errCode ≠ .truncatedWatermark := by
    intro c hc
    rcases launch_cases c with ⟨_, h⟩ | ⟨_, _, h⟩ | ⟨_, _, h⟩ <;> rw [h]
    · exact hc
    · exact fun h => nomatch h
    · exact hc
  apply launched
  cases i <;> simp only [startOf]
  case frame =>
    rcases startFrame_cases (acceptClear (opcodeOf .frame) b) with ⟨_, h⟩ | ⟨_, h⟩ <;> rw [h] <;> simp
  case embed =>
    rcases startEmbed_cases (acceptClear (opcodeOf .embed) b) with ⟨_, h⟩ | ⟨_, _, h⟩ | ⟨_, _, h⟩ <;> rw [h] <;> simp
  case embedRaw =>
    rcases startEmbedRaw_cases (acceptClear (opcodeOf .embedRaw) b) with ⟨_, h⟩ | ⟨_, h⟩ <;> rw [h] <;> simp
  case extract =>
    rcases startExtract_cases (acceptClear (opcodeOf .extract) b) with ⟨_, h⟩ | ⟨_, h⟩ <;> rw [h] <;> simp

/-- No register write changes `ERR_CODE` to TruncatedWatermark. -/
theorem WriteKind.errCode_ne {i : Nat} {d : Word} {b b' : Block} (hw : WriteKind i d b b')
    (h : b'.errCode ≠ b.errCode) : b'.errCode ≠ .truncatedWatermark := by
  cases hw with
  | softReset | illegal => exact fun h => nomatch h
  | command _ _ j => exact launch_startOf_errCode j b
  | enable | ignored | acknowledge | operand => exact absurd rfl h

end Sys2Proof.Machine

namespace Sys2Proof.Proofs

open Sys2Proof Sys2Proof.Machine

/-- Settles O18, by the two ends of a beat (R72). -/
theorem beatEnd : Obligations.BeatEnd := by
  intro b
  rcases endBeat_cases b with ⟨htotal, h⟩ | ⟨htotal, h⟩
  · exact ⟨fun _ => h, fun hne => absurd htotal hne⟩
  · exact ⟨fun heq => absurd heq htotal, fun _ => h⟩

/-- Settles O21: at each kind of position the turn is the beat of EMBED_RAW there, or the wait for a missing item
(R92). -/
theorem embedRawBeat : Obligations.EmbedRawBeat := by
  intro s hrun
  refine ⟨fun hs => ?missingSample, fun x rest hs => ⟨fun hk => ?passThrough,
    fun hk => ⟨fun hbits => ?missingBit, fun b bRest hbits => ?bit⟩⟩⟩
  case missingSample => exact engineTurn_embedRaw_noSample hrun hs
  case passThrough => exact engineTurn_embedRaw_passThrough hrun hs hk
  case missingBit => exact engineTurn_embedRaw_noBit hrun hk hbits
  case bit => exact engineTurn_embedRaw_beat hrun hs hk hbits

/-- Settles O23: the byte is `w.byte_sr` with the sample's bit 0 written into it (R99). -/
theorem extractPayloadBeat : Obligations.ExtractPayloadBeat := by
  intro s hrun hk
  refine ⟨fun hs => engineTurn_extract_noSample hrun hs, fun x rest hs => ⟨payloadByte s.block (lsb x), fun j _ => ?_,
    engineTurn_extract_payloadBeat hrun hs hk⟩⟩
  rw [payloadByte, getLsbD_writeBit_of_lt (Nat.mod_lt _ (by decide)), lsb]

/-- Settles O24: a beat waits exactly when it answers nothing, which for each command is a missing item (R45). -/
theorem beatWaitsExactlyForMissingInput : Obligations.BeatWaitsExactlyForMissingInput := by
  intro s i hrun
  rw [beatEnabled_eq_false_iff hrun]
  refine ⟨fun hnone => engineTurn_running_wait hrun hnone, ?_⟩
  cases i <;> simp only [beatOf]
  case frame => rw [beatFrame_eq_none_iff, framerBit_eq_none_iff]
  case embed => rw [beatEmbed_eq_none_iff, framerBit_eq_none_iff]; rfl
  case embedRaw => rw [beatEmbedRaw_eq_none_iff]; rfl
  case extract => exact beatExtract_eq_none_iff _ _

/-- Settles O25: a turn without a beat moves nothing, and a beat moves at most one item at each queue (R14). -/
theorem beatMovesAtMostOneItemPerQueue : Obligations.BeatMovesAtMostOneItemPerQueue := by
  intro s t h
  suffices hmoves : s.streams.MovesAtMostOne t.streams from hmoves
  rcases engineTurn_cases s with h' | ⟨i, b, q, _, _, _, hq, h'⟩ | ⟨_, _, _, h'⟩ <;> rw [h'] at h <;> cases h
  · exact ⟨.refl _, .refl _, .refl _, .refl _, .refl _, .refl _⟩
  · exact beatOf_movesAtMostOne hq

/-- Settles O26: a turn without a beat changes nothing, and a beat keeps what its command does not use (R34, R36). -/
theorem beatFrame : Obligations.BeatFrame := by
  intro s t i hrun h
  suffices hkeeps : s.streams.SameUnused i t.streams ∧ s.block.SameLatched t.block ∧
      (i ≠ .extract → s.block.SameDecoded t.block) ∧ t.rst = s.rst ∧ t.agenda = s.agenda ∧ t.seen = s.seen by
    obtain ⟨hunused, hlatched, hdec, hhost⟩ := hkeeps
    obtain ⟨hsIn, hsOut, hpIn, hpOut, hbIn, hbOut⟩ := hunused
    obtain ⟨hie, hci, hop, hp, hn, hm, hwop, hlen, hwn, hnbits⟩ := hlatched
    exact ⟨hsIn, hsOut, hpIn, hpOut, hbIn, hbOut, hdec, hie, hci, hop, hp, hn, hm, hwop, hlen, hwn, hnbits, hhost⟩
  cases hq : beatOf i s.block s.streams with
  | none =>
    rw [engineTurn_running_wait hrun hq] at h
    cases h
    exact ⟨⟨fun _ => rfl, fun _ => rfl, fun _ => rfl, fun _ => rfl, fun _ => rfl, fun _ => rfl⟩,
      ⟨rfl, rfl, rfl, rfl, rfl, rfl, rfl, rfl, rfl, rfl⟩, fun _ => ⟨rfl, rfl, rfl, rfl, rfl⟩, rfl, rfl, rfl⟩
  | some r =>
    obtain ⟨b, q⟩ := r
    rw [engineTurn_running_beat hrun hq] at h
    cases h
    obtain ⟨hlatched, hdecoded⟩ := beatOf_keeps hq
    exact ⟨beatOf_sameUnused hq, hlatched, hdecoded, rfl, rfl, rfl⟩

/-- Settles O27: a register write moves no item and does not record TruncatedWatermark, and the one beat that records an
error is that of EXTRACT at position 31 (R106 to R111). -/
theorem noOutputInTheStepOfAnError : Obligations.NoOutputInTheStepOfAnError := by
  intro s t _ hstep herr hchange
  cases step_cases hstep with
  | quiet hb _ => exact absurd (congrArg Block.errCode hb) hchange
  | beat i hr hbusy hop hq _ _ =>
    rcases beatOf_errCode hq with hsame | hnone | ⟨rfl, h31, hcode, hpos, rest, hstreams⟩
    · exact absurd hsame hchange
    · exact absurd hnone herr
    · rw [hstreams]
      exact ⟨rfl, rfl, rfl, fun hne => absurd hcode hne, fun _ => ⟨⟨hr, hbusy, hop⟩, BitVec.eq_of_toNat_eq h31, hpos⟩⟩
  | write i d _ _ _ _ hb hstreams _ =>
    rw [hstreams]
    exact ⟨rfl, rfl, rfl, fun _ => rfl, fun hcode => absurd hcode ((writeKind_of_eq hb).errCode_ne hchange)⟩
  | assertReset _ _ hb _ _ => rw [hb] at herr; exact absurd rfl herr

end Sys2Proof.Proofs
end

section
/-!
The proofs about the register map and the host's moves (10_state.md, 20_memory.md, 60_exceptions.md section 4): what a
read returns, what a write changes and what it leaves, the streams, the interrupt output, and what a step does to `POS`,
to the operand registers and to the latched fields.
-/

namespace Sys2Proof.Machine

/-! ### The words the host reads (R19 to R23, R39) -/

/-- Every index from 17 on is reserved and reads 0 (R32, R39). -/
theorem readWord_reserved (sw : Nat) (b : Block) {i : Nat} (h : 17 ≤ i) : readWord sw b i = 0#32 := by
  unfold readWord
  split
  case h_18 => rfl
  all_goals omega

/-- The `CTRL` word by the one bit that is not always 0 (R21). -/
theorem ctrlWord_eq (b : Block) : ctrlWord b = if b.ie then 0x00000002#32 else 0x00000000#32 := by
  cases h : b.ie <;> simp only [ctrlWord, h] <;> rfl

/-- A pending read of a legal index, out of reset: the host gets the word of the register map back (R39). -/
theorem nextMove_read_released {sw : Nat} {s : State sw} {i : Nat} {rest : List (Move sw)} (hr : s.rst = false)
    (hi : i < 64) (ha : s.agenda = .read i :: rest) :
    nextMove s = .next ((s.withAgenda rest).withSeen (.reg i (readWord sw s.block i))) := by
  rw [nextMove_cons ha, runMove, regRead_eq hi, State.withAgenda_rst, hr]
  rfl

theorem errFlag_iff (b : Block) : errFlag b = true ↔ b.errCode ≠ .noError := by
  cases h : b.errCode <;> simp [errFlag, errCodeBits, h]

/-- `STATUS` below bit 4: the three flags and a 0 (R23). -/
theorem statusWord_flags (b : Block) :
    (statusWord b).getLsbD 0 = b.busy ∧ (statusWord b).getLsbD 1 = b.done ∧ (statusWord b).getLsbD 2 = errFlag b ∧
    (statusWord b).getLsbD 3 = false ∧ (statusWord b).getLsbD 8 = b.cmdIgnored := by
  simp only [statusWord, BitVec.getLsbD_append, BitVec.getLsbD_ofBool]
  simp

/-- The fields of `STATUS` above the flags: `ERR_CODE`, zeros, `OP` and zeros (R23). -/
theorem statusWord_fields (b : Block) :
    (statusWord b).extractLsb' 4 4 = errCodeBits b.errCode ∧ (statusWord b).extractLsb' 9 3 = 0#3 ∧
    (statusWord b).extractLsb' 12 4 = b.op ∧ (statusWord b).extractLsb' 16 16 = 0#16 := by
  rw [statusWord]
  simp (disch := decide) only [BitVec.extractLsb'_append_eq_of_le]
  exact ⟨BitVec.extractLsb'_append_eq_right, BitVec.extractLsb'_append_eq_right, BitVec.extractLsb'_append_eq_right,
    rfl⟩

/-- The fields of `INFO` for a sample width that fits in 8 bits (R19, R20). -/
theorem infoWord_fields {sw : Nat} (h : sw ≤ 255) :
    ((infoWord sw).extractLsb' 0 8).toNat = sw ∧ (infoWord sw).extractLsb' 8 8 = 1#8 ∧
    (infoWord sw).extractLsb' 16 16 = 0#16 := by
  rw [infoWord]
  refine ⟨?_, ?_, ?_⟩
  · rw [BitVec.extractLsb'_append_eq_right, BitVec.toNat_ofNat, Nat.mod_eq_of_lt (Nat.lt_succ_of_le h)]
  · rw [BitVec.extractLsb'_append_eq_of_le (by decide)]
    exact BitVec.extractLsb'_append_eq_right
  · rw [BitVec.extractLsb'_append_eq_of_le (by decide), BitVec.extractLsb'_append_eq_of_le (by decide)]
    rfl

/-- `INFO` as the format version over the sample width, for a width that fits in 8 bits (R20). -/
theorem infoWord_eq_or {sw : Nat} (h : sw ≤ 255) : infoWord sw = 0x00000100#32 ||| BitVec.ofNat 32 sw := by
  have h8 : sw % 2 ^ 8 = sw := Nat.mod_eq_of_lt (Nat.lt_succ_of_le h)
  have h32 : sw % 2 ^ 32 = sw := Nat.mod_eq_of_lt (by omega)
  apply BitVec.eq_of_toNat_eq
  rw [infoWord, BitVec.toNat_append, BitVec.toNat_or, BitVec.toNat_ofNat, BitVec.toNat_ofNat, BitVec.toNat_ofNat, h8,
    h32]
  rfl

/-! ### Operand writes (R40, R42) -/

/-- The host reads the operand `x` of the blocks `c x` at the indices `lo` and `lo + 1`, and nothing of it elsewhere. -/
structure OperandAt (sw : Nat) (c : DWord → Block) (lo : Nat) : Prop where
  readLo : ∀ x, readWord sw (c x) lo = loWord x
  readHi : ∀ x, readWord sw (c x) (lo + 1) = hiWord x
  readElse : ∀ x y j, j ≠ lo → j ≠ lo + 1 → readWord sw (c x) j = readWord sw (c y) j

theorem operandAt_payloadLen (sw : Nat) (b : Block) : OperandAt sw (fun x => { b with payloadLen := x }) 4 := by
  refine ⟨fun _ => rfl, fun _ => rfl, fun x y j h4 h5 => ?_⟩
  unfold readWord
  split
  case h_5 => exact absurd rfl h4
  case h_6 => exact absurd rfl h5
  all_goals rfl

theorem operandAt_sampleCount (sw : Nat) (b : Block) : OperandAt sw (fun x => { b with sampleCount := x }) 6 := by
  refine ⟨fun _ => rfl, fun _ => rfl, fun x y j h6 h7 => ?_⟩
  unfold readWord
  split
  case h_7 => exact absurd rfl h6
  case h_8 => exact absurd rfl h7
  all_goals rfl

theorem operandAt_bitCount (sw : Nat) (b : Block) : OperandAt sw (fun x => { b with bitCount := x }) 8 := by
  refine ⟨fun _ => rfl, fun _ => rfl, fun x y j h8 h9 => ?_⟩
  unfold readWord
  split
  case h_9 => exact absurd rfl h8
  case h_10 => exact absurd rfl h9
  all_goals rfl

/-- A write to the low half of an operand is read back there, and every other index reads as before (R40, R42). -/
theorem OperandAt.withLo {sw lo : Nat} {c : DWord → Block} (h : OperandAt sw c lo) (x : DWord) (d : Word) :
    readWord sw (c (withLo x d)) lo = d ∧ ∀ j, j ≠ lo → readWord sw (c (withLo x d)) j = readWord sw (c x) j := by
  refine ⟨by rw [h.readLo, Machine.withLo, loWord_joinWords], fun j hj => ?_⟩
  by_cases hj' : j = lo + 1
  · rw [hj', h.readHi, h.readHi, Machine.withLo, hiWord_joinWords]
  · exact h.readElse _ _ j hj hj'

/-- A write to the high half of an operand is read back there, and every other index reads as before (R40, R42). -/
theorem OperandAt.withHi {sw lo : Nat} {c : DWord → Block} (h : OperandAt sw c lo) (x : DWord) (d : Word) :
    readWord sw (c (withHi x d)) (lo + 1) = d ∧
      ∀ j, j ≠ lo + 1 → readWord sw (c (withHi x d)) j = readWord sw (c x) j := by
  refine ⟨by rw [h.readHi, Machine.withHi, hiWord_joinWords], fun j hj => ?_⟩
  by_cases hj' : j = lo
  · rw [hj', h.readLo, h.readLo, Machine.withHi, loWord_joinWords]
  · exact h.readElse _ _ j hj' hj

/-- A write to an operand register is read back at its index, every other index reads as before, and the working fields
are kept (R40). -/
theorem writeBlock_operand_reads (sw : Nat) {i : Nat} (h4 : 4 ≤ i) (h9 : i ≤ 9) (d : Word) (b : Block) :
    readWord sw (writeBlock i d b) i = d ∧
    (∀ j, j ≠ i → readWord sw (writeBlock i d b) j = readWord sw b j) ∧ (writeBlock i d b).w = b.w := by
  suffices hreads : readWord sw (writeBlock i d b) i = d ∧
      ∀ j, j ≠ i → readWord sw (writeBlock i d b) j = readWord sw b j by
    obtain ⟨hread, helse⟩ := hreads
    have hw := congrArg Block.w (writeBlock_operand (i := i) (by omega) (by omega) (by omega) d b)
    exact ⟨hread, helse, hw⟩
  have hi : i = 4 ∨ i = 5 ∨ i = 6 ∨ i = 7 ∨ i = 8 ∨ i = 9 := by omega
  rcases hi with rfl | rfl | rfl | rfl | rfl | rfl
  · exact (operandAt_payloadLen sw b).withLo b.payloadLen d
  · exact (operandAt_payloadLen sw b).withHi b.payloadLen d
  · exact (operandAt_sampleCount sw b).withLo b.sampleCount d
  · exact (operandAt_sampleCount sw b).withHi b.sampleCount d
  · exact (operandAt_bitCount sw b).withLo b.bitCount d
  · exact (operandAt_bitCount sw b).withHi b.bitCount d

/-- A write to `INFO`, to a read-only register or to a reserved index does nothing to the block (R40). -/
theorem writeBlock_ignored {i : Nat} (h : i = 0 ∨ 10 ≤ i) (d : Word) (b : Block) : writeBlock i d b = b := by
  unfold writeBlock
  split
  case h_10 => rfl
  all_goals omega

/-! ### Moves under an asserted reset (R125) -/

theorem engineTurn_asserted {sw : Nat} {s : State sw} (hr : s.rst = true) : engineTurn s = .next s := by
  simp [engineTurn, hr]

theorem waitEngine_asserted {sw : Nat} {s : State sw} (hr : s.rst = true) : waitEngine s = .next s := by
  simp [waitEngine, beatEnabled, hr]

/-! ### What a register write does to `POS`, to the operands and to the working fields -/

/-- Acceptance and start clear `POS` and keep `IE` and the operand registers (R67, R68). -/
theorem launch_startOf_keeps (i : Instr) (b : Block) :
    (launch (startOf i (acceptClear (opcodeOf i) b))).pos = 0#64 ∧
    (launch (startOf i (acceptClear (opcodeOf i) b))).ie = b.ie ∧
    (launch (startOf i (acceptClear (opcodeOf i) b))).payloadLen = b.payloadLen ∧
    (launch (startOf i (acceptClear (opcodeOf i) b))).sampleCount = b.sampleCount ∧
    (launch (startOf i (acceptClear (opcodeOf i) b))).bitCount = b.bitCount := by
  obtain ⟨hie, hp, hn, hm, hpos, _⟩ := launch_frame (startOf i (acceptClear (opcodeOf i) b))
  obtain ⟨hie', hp', hn', hm', hpos', _⟩ := startOf_keeps i (acceptClear (opcodeOf i) b)
  exact ⟨hpos.trans hpos', hie.trans hie', hp.trans hp', hn.trans hn', hm.trans hm'⟩

/-- A register write keeps `POS`, or clears it by an accepted word or a soft reset (R17, R31). -/
theorem WriteKind.pos {i : Nat} {d : Word} {b b' : Block} (hw : WriteKind i d b b') :
    b'.pos = b.pos ∨ (b'.pos = 0#64 ∧ ((i = 2 ∧ b.busy = false) ∨ (i = 1 ∧ d.getLsbD 0 = true))) := by
  cases hw with
  | softReset hi hd => exact .inr ⟨rfl, .inr ⟨hi, hd⟩⟩
  | command hi hb j =>
    obtain ⟨hpos, _⟩ := launch_startOf_keeps j b
    exact .inr ⟨hpos, .inl ⟨hi, hb⟩⟩
  | illegal hi hb => exact .inr ⟨rfl, .inl ⟨hi, hb⟩⟩
  | enable | ignored | acknowledge | operand => exact .inl rfl

/-- Only a soft reset and a write to one of its halves change an operand register (R40, R74). -/
theorem WriteKind.operands {i : Nat} {d : Word} {b b' : Block} (hw : WriteKind i d b b')
    (hreset : i = 1 → d.getLsbD 0 = false) :
    (b'.payloadLen = b.payloadLen ∨ i = 4 ∨ i = 5) ∧ (b'.sampleCount = b.sampleCount ∨ i = 6 ∨ i = 7) ∧
    (b'.bitCount = b.bitCount ∨ i = 8 ∨ i = 9) := by
  cases hw with
  | softReset hi hd => rw [hreset hi] at hd; cases hd
  | command _ _ j =>
    obtain ⟨_, _, hp, hn, hm⟩ := launch_startOf_keeps j b
    exact ⟨.inl hp, .inl hn, .inl hm⟩
  | operand p n m hp hn hm => exact ⟨hp, hn, hm⟩
  | enable | ignored | illegal | acknowledge => exact ⟨.inl rfl, .inl rfl, .inl rfl⟩

/-- A register write that leaves a running block running keeps its working fields (R54, R76). -/
theorem WriteKind.work_of_busy {i : Nat} {d : Word} {b b' : Block} (hw : WriteKind i d b b') (hb : b.busy = true)
    (hb' : b'.busy = true) : b'.w = b.w := by
  cases hw with
  | softReset | illegal => cases hb'
  | command _ hidle => rw [hb] at hidle; cases hidle
  | enable | ignored | acknowledge | operand => rfl

/-- A beat changes `w.total` only in EXTRACT at position 31 (R100). -/
theorem beatOf_total {sw : Nat} {i : Instr} {b b' : Block} {q q' : Streams sw} (h : beatOf i b q = some (b', q')) :
    b'.w.total = b.w.total ∨ (i = .extract ∧ b.pos.toNat = 31) := by
  rcases beatOf_block h with ⟨byteSr, rfl⟩ | ⟨hi, _, x, _, _, rfl, _⟩
  · exact .inl (by rw [endBeat_w])
  · obtain ⟨L, _, ⟨_, h⟩ | ⟨_, _, h⟩ | ⟨_, _, _, h⟩ | ⟨h31, _, _, _⟩⟩ := lengthBeat_cases b (lsb x)
    · exact .inl (by rw [h])
    · exact .inl (by rw [h])
    · exact .inl (by rw [h])
    · exact .inr ⟨hi, h31⟩

/-! ### The interrupt output (R35, R116, R117) -/

/-- `IRQ` is 1 exactly when `IE` and `DONE` are. -/
theorem irq_iff (b : Block) : irq b = true ↔ b.ie = true ∧ b.done = true := by
  rw [irq, Bool.and_eq_true]

/-- A beat keeps `IE` and raises `DONE` only where it leaves the block idle, and never clears it (R72). -/
theorem beatOf_done {sw : Nat} {i : Instr} {b b' : Block} {q q' : Streams sw} (h : beatOf i b q = some (b', q')) :
    b'.ie = b.ie ∧ (b.done = true → b'.done = true) ∧ (b.done = false → b'.done = true → b'.busy = false) := by
  obtain ⟨_, hie, _, _, _, ⟨_, hdone, _⟩ | ⟨hidle, hdone⟩⟩ := beatOf_flags h
  · refine ⟨hie, fun hd => hdone.trans hd, fun hd hd' => ?_⟩
    rw [hdone, hd] at hd'
    cases hd'
  · exact ⟨hie, fun _ => hdone, fun _ _ => hidle⟩

/-- The register writes in which `IRQ` rises: a word that completes at acceptance, and a `CTRL` write that sets `IE`. -/
theorem WriteKind.irq_rises {i : Nat} {d : Word} {b b' : Block} (hw : WriteKind i d b b') (h : irq b = false)
    (h' : irq b' = true) :
    (b.ie = true ∧ b.done = false ∧ b'.done = true ∧ b'.busy = false) ∨
    (b.done = true ∧ i = 1 ∧ d.getLsbD 0 = false ∧ d.getLsbD 1 = true) := by
  have hne : irq b' ≠ irq b := by rw [h, h']; decide
  obtain ⟨hie', hdone'⟩ := (irq_iff b').mp h'
  have notDone : b.ie = true → b.done = false := fun hie => by rwa [irq, hie, Bool.true_and] at h
  cases hw with
  | softReset => cases h'
  | enable hi hd => exact .inr ⟨hdone', hi, hd, hie'⟩
  | command _ hb j =>
    obtain ⟨_, hie, _⟩ := launch_startOf_keeps j b
    rcases launch_startOf_flags j hb with ⟨_, hd⟩ | ⟨hidle, hd⟩
    · rw [hd] at hdone'; cases hdone'
    · exact .inl ⟨hie.symm.trans hie', notDone (hie.symm.trans hie'), hd, hidle⟩
  | illegal => exact .inl ⟨hie', notDone hie', rfl, rfl⟩
  | acknowledge =>
    have hdone : b.done = true := (Bool.and_eq_true_iff.mp hdone').1
    rw [notDone hie'] at hdone
    cases hdone
  | ignored | operand => exact absurd rfl hne

/-- The register writes in which `IRQ` falls. -/
theorem WriteKind.irq_falls {i : Nat} {d : Word} {b b' : Block} (hw : WriteKind i d b b') (h : irq b = true)
    (h' : irq b' = false) :
    (i = 3 ∧ d.getLsbD 1 = true) ∨ (i = 2 ∧ b.busy = false) ∨
    (i = 1 ∧ (d.getLsbD 0 = true ∨ d.getLsbD 1 = false)) := by
  have hne : irq b' ≠ irq b := by rw [h, h']; decide
  obtain ⟨hie, hdone⟩ := (irq_iff b).mp h
  cases hw with
  | softReset hi hd => exact .inr (.inr ⟨hi, .inl hd⟩)
  | enable hi _ => exact .inr (.inr ⟨hi, .inr (by simpa [irq, hdone] using h')⟩)
  | command hi hb | illegal hi hb => exact .inr (.inl ⟨hi, hb⟩)
  | acknowledge hi => exact .inl ⟨hi, by simpa [irq, hie, hdone] using h'⟩
  | ignored | operand => exact absurd rfl hne

end Sys2Proof.Machine

namespace Sys2Proof.Proofs

open Sys2Proof Sys2Proof.Machine

/-! ### Registers -/

/-- Settles O28: the word is `readWord`, whose halves of the 64-bit registers are read as numbers (R39, R42). -/
theorem readReturnsRegisterMap : Obligations.ReadReturnsRegisterMap := by
  intro s i rest hr hi ha
  refine ⟨readWord Config.sampleW s.block i, nextMove_read_released hr hi ha, ?_⟩
  refine ⟨?info, ?ctrl, ?cmd, ?status, ?_, ?_, ?_, ?_, ?_, ?_, ?_, ?_, ?_, ?_, ?decodedLen, ?_, ?_, ?reserved⟩
  case info => rintro rfl; exact infoWord_sampleW
  case ctrl => rintro rfl; exact ctrlWord_eq s.block
  case cmd | status | decodedLen => rintro rfl; rfl
  case reserved => exact readWord_reserved _ s.block
  all_goals
    rintro rfl
    simp only [readWord, loWord_toNat, hiWord_toNat]

/-- Settles O29: the bits and fields of the word, and the number of each code (R23, R105). -/
theorem statusLayout : Obligations.StatusLayout := by
  intro b
  obtain ⟨hbusy, hdone, herr, hzero, hignored⟩ := statusWord_flags b
  obtain ⟨hcode, hgap, hop, hhigh⟩ := statusWord_fields b
  refine ⟨hbusy, hdone, by rw [herr, errFlag_iff], hzero, ?_, hignored, hgap, hop, hhigh⟩
  rw [hcode]
  cases b.errCode <;> rfl

/-- Settles O30: `INFO` does not depend on the block, and its fields are the format version and the width (R19, R20). -/
theorem infoWordForEveryWidth : Obligations.InfoWordForEveryWidth := by
  intro sw b _ h
  rw [readWord_info]
  exact ⟨infoWord_eq_or h, infoWord_fields h⟩

/-- Settles O31: the write is one to a half of an operand, which is read at its own two indices only (R40, R42). -/
theorem operandWriteReadsBack : Obligations.OperandWriteReadsBack := by
  intro s i d hr h4 h9
  obtain ⟨hread, helse, hw⟩ := writeBlock_operand_reads Config.sampleW h4 h9 d s.block
  refine ⟨s.withBlock (writeBlock i d s.block), ?_, hread, helse, hw, rfl, rfl, rfl, rfl⟩
  rw [regWrite_eq (by omega), State.onBlock_released hr]

/-- Settles O32: the write is legal and does nothing to the block, in reset or not (R40). -/
theorem writesToReadOnlyAndReservedIgnored : Obligations.WritesToReadOnlyAndReservedIgnored := by
  intro s i d rest hi ha
  have hstep : step s = regWrite i d (s.withAgenda rest) := nextMove_cons ha
  have hkeep : writeBlock i d = fun b => b := funext fun b => writeBlock_ignored (by omega) d b
  rw [hstep, regWrite_eq (by omega), hkeep, State.onBlock_id]

/-! ### The host's moves -/

/-- Settles O38: each of these moves has no effect while reset is asserted (R125). -/
theorem assertedResetBlocksAccessesAndBeats : Obligations.AssertedResetBlocksAccessesAndBeats := by
  intro s m rest hr ha hm
  have hstep : step s = runMove m (s.withAgenda rest) := nextMove_cons ha
  have hr' : (s.withAgenda rest).rst = true := hr
  rw [hstep]
  rcases hm with rfl | rfl | ⟨i, hi, rfl⟩ | ⟨i, d, hi, rfl⟩ <;> rw [runMove]
  · exact engineTurn_asserted hr'
  · exact waitEngine_asserted hr'
  · rw [regRead_eq hi, if_pos hr']
  · rw [regWrite_eq hi, State.onBlock_asserted hr']

/-- Settles O39: the offers append, and the collections from a queue that is not empty take its head (R46, R64). -/
theorem offersAppendAndCollectionsTakeHeads : Obligations.OffersAppendAndCollectionsTakeHeads := by
  intro s rest
  refine ⟨fun v ha => nextMove_cons ha, fun v ha => nextMove_cons ha, fun v ha => nextMove_cons ha,
    fun v q ha hq => ?sample, fun v q ha hq => ?byte, fun v q ha hq => ?bit⟩
  case sample =>
    have hstep : step s = .next (collectSample (s.withAgenda rest)) := nextMove_cons ha
    rw [hstep, collectSample, State.withAgenda_streams, hq]
  case byte =>
    have hstep : step s = .next (collectByte (s.withAgenda rest)) := nextMove_cons ha
    rw [hstep, collectByte, State.withAgenda_streams, hq]
  case bit =>
    have hstep : step s = .next (collectBit (s.withAgenda rest)) := nextMove_cons ha
    rw [hstep, collectBit, State.withAgenda_streams, hq]

/-- Settles O40, by the kinds of step (R35, R116, R117). -/
theorem interruptEdges : Obligations.InterruptEdges := by
  refine ⟨fun _ => rfl, fun s t hstep => ?_⟩
  cases step_cases hstep with
  | quiet hb _ =>
    have hsame : irq t.block = irq s.block := congrArg irq hb
    constructor <;> (intro h h'; rw [hsame, h] at h'; cases h')
  | beat i _ _ _ hq _ _ =>
    obtain ⟨hie, hkeep, hraise⟩ := beatOf_done hq
    constructor
    · intro h h'
      obtain ⟨hie', hdone'⟩ := (irq_iff t.block).mp h'
      rw [hie] at hie'
      rw [irq, hie', Bool.true_and] at h
      exact .inl ⟨hie', h, hdone', hraise h hdone'⟩
    · intro h h'
      obtain ⟨hie', hdone⟩ := (irq_iff s.block).mp h
      rw [irq, hie, hie', hkeep hdone] at h'
      cases h'
  | write i d rest _ ha _ hb _ _ =>
    have hw := writeKind_of_eq hb
    constructor
    · intro h h'
      rcases hw.irq_rises h h' with hdone | ⟨hdone, rfl, h0, h1⟩
      · exact .inl hdone
      · exact .inr ⟨hdone, d, rest, ha, h0, h1⟩
    · intro h h'
      rcases hw.irq_falls h h' with ⟨rfl, h1⟩ | ⟨rfl, hidle⟩ | ⟨rfl, hd⟩
      · exact .inl ⟨d, rest, ha, h1⟩
      · exact .inr (.inl ⟨d, rest, ha, hidle⟩)
      · exact .inr (.inr (.inl ⟨d, rest, ha, hd⟩))
  | assertReset rest ha hb _ _ =>
    refine ⟨fun _ h' => ?_, fun _ _ => .inr (.inr (.inr ⟨rest, ha⟩))⟩
    rw [hb] at h'
    cases h'

/-! ### What a step does to `POS`, to the operands and to the latched fields -/

/-- Settles O50, by the kinds of step (R17, R31). -/
theorem positionMovesByOneOrIsCleared : Obligations.PositionMovesByOneOrIsCleared := by
  intro s t hstep
  cases step_cases hstep with
  | quiet hb _ => exact .inl (congrArg Block.pos hb)
  | beat i hr hb _ hq _ hmove =>
    obtain ⟨hpos, _⟩ := beatOf_flags hq
    exact .inr (.inl ⟨hr, hb, hpos, hmove⟩)
  | write i d rest _ ha _ hb _ _ =>
    rcases (writeKind_of_eq hb).pos with hpos | ⟨hpos, ⟨rfl, hidle⟩ | ⟨rfl, hd⟩⟩
    · exact .inl hpos
    · exact .inr (.inr ⟨hpos, .inl ⟨d, rest, ha, hidle⟩⟩)
    · exact .inr (.inr ⟨hpos, .inr (.inl ⟨d, rest, ha, hd⟩)⟩)
  | assertReset rest ha hb _ _ => exact .inr (.inr ⟨congrArg Block.pos hb, .inr (.inr ⟨rest, ha⟩)⟩)

/-- Settles O51, by the kinds of step (R25 to R27, R40). -/
theorem operandsChangeOnlyByHostWriteOrReset : Obligations.OperandsChangeOnlyByHostWriteOrReset := by
  intro s t hstep hassert hreset
  cases step_cases hstep with
  | quiet hb _ => rw [hb]; exact ⟨.inl rfl, .inl rfl, .inl rfl⟩
  | beat i _ _ _ hq _ _ =>
    obtain ⟨_, _, hp, hn, hm, _⟩ := beatOf_flags hq
    exact ⟨.inl hp, .inl hn, .inl hm⟩
  | write i d rest _ ha _ hb _ _ =>
    obtain ⟨hp, hn, hm⟩ := (writeKind_of_eq hb).operands fun hi => hreset d rest (hi ▸ ha)
    exact ⟨hp.imp_right fun hi => ⟨i, d, rest, ha, hi⟩, hn.imp_right fun hi => ⟨i, d, rest, ha, hi⟩,
      hm.imp_right fun hi => ⟨i, d, rest, ha, hi⟩⟩
  | assertReset rest ha _ _ _ => exact absurd ha (hassert rest)

/-- Settles O52, by the kinds of step (R54, R76). -/
theorem latchedOperandsFixedWhileRunning : Obligations.LatchedOperandsFixedWhileRunning := by
  intro s t hstep hbusy hbusy'
  cases step_cases hstep with
  | quiet hb _ => rw [hb]; exact ⟨rfl, rfl, rfl, rfl, .inl rfl⟩
  | beat i _ _ hop hq _ _ =>
    obtain ⟨⟨_, _, _, _, _, _, hwop, hlen, hn, hnbits⟩, _⟩ := beatOf_keeps hq
    refine ⟨hwop, hlen, hn, hnbits, (beatOf_total hq).imp_right ?_⟩
    rintro ⟨rfl, h31⟩
    exact ⟨hop, BitVec.eq_of_toNat_eq h31⟩
  | write i d rest _ _ _ hb _ _ =>
    rw [(writeKind_of_eq hb).work_of_busy hbusy hbusy']
    exact ⟨rfl, rfl, rfl, rfl, .inl rfl⟩
  | assertReset _ _ hb _ _ => rw [hb] at hbusy'; cases hbusy'

end Sys2Proof.Proofs
end

section
/-!
The proofs about the per-sample rule and the source's functions on sequences (42_embedder.md section 1, 43_extractor.md
sections 1 and 2): the rule as a number, the samples of `embed` by index, the sum of bits, and the round trip (R103).
-/

namespace Sys2Proof.Machine

/-! ### The per-sample rule as a number (R83 to R85) -/

/-- Bit 0 of a sample is its value modulo 2. -/
theorem toNat_mod_two {sw : Nat} (s : BitVec sw) : s.toNat % 2 = (s.getLsbD 0).toNat := by
  rw [← BitVec.testBit_toNat, Nat.testBit_zero]
  rcases Nat.mod_two_eq_zero_or_one s.toNat with h | h <;> rw [h] <;> rfl

/-- `setLsb` replaces the remainder modulo 2 of a sample and keeps its half. -/
theorem setLsb_toNat {sw : Nat} (hsw : 1 ≤ sw) (s : BitVec sw) (b : Bit) :
    (setLsb s b).toNat = 2 * (s.toNat / 2) + b.toNat := by
  have hb := Bool.toNat_lt b
  have hlow : (setLsb s b).toNat % 2 = b.toNat := by rw [toNat_mod_two, getLsbD_setLsb_zero hsw]
  have hhigh : (setLsb s b).toNat / 2 = s.toNat / 2 := by
    refine Nat.eq_of_testBit_eq fun i => ?_
    rw [← Nat.testBit_succ, ← Nat.testBit_succ, BitVec.testBit_toNat, BitVec.testBit_toNat,
      getLsbD_setLsb_of_one_le (Nat.le_add_left 1 i)]
  omega

theorem setLsb_true {sw : Nat} (hsw : 1 ≤ sw) (s : BitVec sw) : setLsb s true = s ||| 1#sw := by
  have hpos : 0 < sw := hsw
  refine BitVec.eq_of_getLsbD_eq fun i _ => ?_
  rw [getLsbD_setLsb, BitVec.getLsbD_or, BitVec.getLsbD_one]
  by_cases h : i = 0 <;> simp [h, hpos]

theorem setLsb_false {sw : Nat} (s : BitVec sw) : setLsb s false = s &&& ~~~1#sw := by
  refine BitVec.eq_of_getLsbD_eq fun i hi => ?_
  rw [getLsbD_setLsb, BitVec.getLsbD_and, BitVec.getLsbD_not, BitVec.getLsbD_one]
  by_cases h : i = 0 <;> simp [h, hi]

/-- Clearing bit 0 is the decrement of an odd sample (R84). -/
theorem setLsb_false_eq_sub {sw : Nat} (hsw : 1 ≤ sw) (s : BitVec sw) :
    setLsb s false = if s.getLsbD 0 then s - 1#sw else s := by
  have hnum := setLsb_toNat hsw s false
  have hmod := toNat_mod_two s
  have hone : (1#sw).toNat = 1 := BitVec.toNat_one hsw
  apply BitVec.eq_of_toNat_eq
  cases h : s.getLsbD 0 <;> rw [h] at hmod
  · rw [if_neg Bool.false_ne_true, hnum]
    simp only [Bool.toNat_false] at hmod ⊢
    omega
  · simp only [Bool.toNat_true] at hmod
    have hle : 1#sw ≤ s := by rw [BitVec.le_def, hone]; omega
    rw [if_pos rfl, BitVec.toNat_sub_of_le hle, hone, hnum]
    simp only [Bool.toNat_false]
    omega

/-! ### The embedding function by index (R86) -/

theorem embed_of_le {sw : Nat} {smp : List (BitVec sw)} {bits : List Bit} (h : bits.length ≤ smp.length) :
    embed smp bits = .ok (embedBits smp bits) := by
  rw [embed, if_neg (Nat.not_lt.mpr h)]

theorem embed_ok_iff {sw : Nat} (smp out : List (BitVec sw)) (bits : List Bit) :
    embed smp bits = .ok out ↔ bits.length ≤ smp.length ∧ out = embedBits smp bits := by
  constructor
  · intro h
    by_cases hle : bits.length ≤ smp.length
    · rw [embed_of_le hle] at h
      cases h
      exact ⟨hle, rfl⟩
    · rw [embed, if_pos (Nat.not_le.mp hle)] at h
      cases h
  · rintro ⟨hle, rfl⟩
    exact embed_of_le hle

/-- Past the bits a sample is passed through. -/
theorem embedBits_getElem?_past {sw k : Nat} {bits : List Bit} (h : bits.length ≤ k) (smp : List (BitVec sw)) :
    (embedBits smp bits)[k]? = smp[k]? := by
  have hnone : bits[k]? = none := List.getElem?_eq_none h
  rw [embedBits, List.getElem?_mapIdx, hnone]
  exact Option.map_id'

/-- Within the bits bit 0 of a sample becomes its bit. -/
theorem embedBits_getElem?_bit {sw k : Nat} {bits : List Bit} {b : Bit} (h : bits[k]? = some b)
    (smp : List (BitVec sw)) : (embedBits smp bits)[k]? = smp[k]?.map (setLsb · b) := by
  rw [embedBits, List.getElem?_mapIdx, h]

/-- The least-significant bits of what `embed` gives are the bits, and then those of the samples passed through. -/
theorem map_lsb_embedBits {sw : Nat} (hsw : 1 ≤ sw) {smp : List (BitVec sw)} {bits : List Bit}
    (h : bits.length ≤ smp.length) :
    (embedBits smp bits).map lsb = bits ++ (smp.drop bits.length).map lsb := by
  refine List.ext_getElem? fun k => ?_
  rw [List.getElem?_map]
  rcases Nat.lt_or_ge k bits.length with hk | hk
  · have hbit : bits[k]? = some bits[k] := List.getElem?_eq_getElem hk
    have hsmp : smp[k]? = some smp[k] := List.getElem?_eq_getElem (Nat.lt_of_lt_of_le hk h)
    rw [embedBits_getElem?_bit hbit, hsmp, List.getElem?_append_left hk, hbit, Option.map_some, Option.map_some,
      lsb_setLsb hsw]
  · rw [embedBits_getElem?_past hk, List.getElem?_append_right hk, List.getElem?_map, List.getElem?_drop,
      Nat.add_sub_cancel' hk]

/-! ### The sum of bits (R95, R96) -/

/-- Bit `j` of the sum is bit `j` of the sequence, and 0 past its end. -/
theorem testBit_sumBits (bits : List Bit) (j : Nat) : (sumBits bits).testBit j = bits.getD j false := by
  induction bits generalizing j with
  | nil => simp [sumBits]
  | cons b rest ih =>
    have hb := Bool.toNat_lt b
    rw [sumBits]
    cases j with
    | zero =>
      rw [Nat.testBit_zero, List.getD_cons_zero]
      cases b <;> simp
    | succ j =>
      have hhalf : (b.toNat + 2 * sumBits rest) / 2 = sumBits rest := by omega
      rw [Nat.testBit_succ, hhalf, ih, List.getD_cons_succ]

/-- The 32 length bits sum to the length (R95). -/
theorem sumBits_lengthBits {n : Nat} (h : n < 2 ^ 32) : sumBits (lengthBits n) = n := by
  refine Nat.eq_of_testBit_eq fun j => ?_
  rw [testBit_sumBits, lengthBits]
  rcases Nat.lt_or_ge j 32 with hj | hj
  · simp [hj]
  · have hzero : n.testBit j = false :=
      Nat.testBit_lt_two_pow (Nat.lt_of_lt_of_le h (Nat.pow_le_pow_right (by decide) hj))
    simp [hj, hzero]

/-- The bits of a byte sum to the byte (R96). -/
theorem ofNat_sumBits_byteBits (x : Byte) : BitVec.ofNat 8 (sumBits (byteBits x)) = x := by
  refine BitVec.eq_of_getLsbD_eq fun j hj => ?_
  rw [BitVec.getLsbD_ofNat, testBit_sumBits, byteBits]
  simp [hj]

/-! ### The round trip on sequences (R103) -/

/-- Byte `n` of a payload by its bits in the framed sequence, whatever follows the payload (R78, R96). -/
theorem take_drop_payloadBits {p : List Byte} {n : Nat} (h : n < p.length) (rest : List Bit) :
    ((p.flatMap byteBits ++ rest).drop (8 * n)).take 8 = byteBits p[n] := by
  induction p generalizing n with
  | nil => cases h
  | cons x p ih =>
    rw [List.flatMap_cons, List.append_assoc]
    cases n with
    | zero => exact List.take_left' (byteBits_length x)
    | succ n =>
      rw [Nat.mul_succ, Nat.add_comm, ← List.drop_drop, List.drop_left' (byteBits_length x)]
      exact ih (Nat.lt_of_succ_lt_succ h)

/-- `extract` on samples whose least-significant bits begin with the framed bits of a payload gives the payload. -/
theorem extract_of_map_lsb {sw : Nat} {S : List (BitVec sw)} {p : List Byte} {rest : List Bit} (hp : p.length < 2 ^ 32)
    (h : S.map lsb = frameBits p ++ rest) : extract S = .ok p := by
  have hlen : 32 + 8 * p.length ≤ S.length := by
    have := congrArg List.length h
    rw [List.length_map, List.length_append, frameBits_length] at this
    omega
  rw [frameBits, List.append_assoc] at h
  have hL : decodedLength S = p.length := by
    rw [decodedLength, List.map_take, h, List.take_left' (lengthBits_length _), sumBits_lengthBits hp]
  have hbyte : ∀ n (hn : n < p.length), decodedByte S n = p[n] := by
    intro n hn
    rw [decodedByte, List.map_take, List.map_drop, h, ← List.drop_drop, List.drop_left' (lengthBits_length _),
      take_drop_payloadBits hn, ofNat_sumBits_byteBits]
  rw [extract, hL, if_neg (by omega), if_neg (by omega)]
  refine congrArg Except.ok (List.ext_getElem (by simp) fun n _ hn => ?_)
  rw [List.getElem_map, List.getElem_range, hbyte n hn]

end Sys2Proof.Machine

namespace Sys2Proof.Proofs

open Sys2Proof Sys2Proof.Machine

/-- Settles O42: the OR and the AND bit by bit, the decrement as a number (R84). -/
theorem setLsbEqualsBothSourceFormulas : Obligations.SetLsbEqualsBothSourceFormulas := fun _ s hsw =>
  ⟨setLsb_true hsw s, setLsb_false s, setLsb_false_eq_sub hsw s⟩

/-- Settles O43: from width 2 on the sign is not bit 0, so the value changes as the number of the pattern does (R85). -/
theorem setLsbNumericEffect : Obligations.SetLsbNumericEffect := by
  intro sw s b hsw
  have hsign : (setLsb s b).getLsbD (sw - 1) = s.getLsbD (sw - 1) := getLsbD_setLsb_of_one_le (by omega) s b
  have hnum := setLsb_toNat (by omega) s b
  have hmod := toNat_mod_two s
  rw [sval, sval, hsign, ← hmod, hnum]
  omega

/-- Settles O45: the samples by index (R86, R90). -/
theorem embedChangesOnlyLeadingBitZeros : Obligations.EmbedChangesOnlyLeadingBitZeros := by
  intro sw smp bits hsw hle
  refine ⟨embedBits smp bits, embed_of_le hle, embedBits_length smp bits, fun k x hx => ?_⟩
  rcases Nat.lt_or_ge k bits.length with hk | hk
  · have hbit : bits[k]? = some bits[k] := List.getElem?_eq_getElem hk
    refine ⟨setLsb x bits[k], ?_, fun hpast => absurd hk (Nat.not_lt.mpr hpast), fun b hb => ?_⟩
    · rw [embedBits_getElem?_bit hbit, hx, Option.map_some]
    · obtain rfl : bits[k] = b := Option.some.inj (hbit.symm.trans hb)
      exact ⟨getLsbD_setLsb_zero hsw x _, fun j hj => getLsbD_setLsb_of_one_le hj x _⟩
  · refine ⟨x, by rw [embedBits_getElem?_past hk, hx], fun _ => rfl, fun b hb => ?_⟩
    rw [List.getElem?_eq_none hk] at hb
    cases hb

/-- Settles O46: the least-significant bits of the samples begin with the framed bits (R103). -/
theorem extractOfEmbedOfFrame : Obligations.ExtractOfEmbedOfFrame := by
  intro sw smp out p bits hsw hframe hembed
  obtain ⟨hp, rfl⟩ := (frame_ok_iff p bits).mp hframe
  obtain ⟨hle, rfl⟩ := (embed_ok_iff smp out _).mp hembed
  exact extract_of_map_lsb hp (map_lsb_embedBits hsw hle)

end Sys2Proof.Proofs
end

section
/-!
The proofs about beats beside other moves and at other widths: an enabled beat and a quiet move of the host commute
(20_memory.md R46, R50, R76), and a beat does not depend on the sample width (00_scope.md R8).
-/

namespace Sys2Proof.Machine

/-! ### Offers and collections beside a beat (R46) -/

/-- Items the host offers to the input queues, and numbers of items it collects from the output queues. -/
structure HostItems (sw : Nat) where
  offS : List (BitVec sw) := []
  offP : List Byte := []
  offB : List Bit := []
  takeS : Nat := 0
  takeP : Nat := 0
  takeB : Nat := 0

/-- The queues after these offers and collections. -/
def Streams.after {sw : Nat} (q : Streams sw) (e : HostItems sw) : Streams sw :=
  { sIn := q.sIn ++ e.offS, pIn := q.pIn ++ e.offP, bIn := q.bIn ++ e.offB,
    sOut := q.sOut.drop e.takeS, pOut := q.pOut.drop e.takeP, bOut := q.bOut.drop e.takeB }

/-- The items collected are there. -/
def HostItems.There {sw : Nat} (e : HostItems sw) (q : Streams sw) : Prop :=
  e.takeS ≤ q.sOut.length ∧ e.takeP ≤ q.pOut.length ∧ e.takeB ≤ q.bOut.length

/-- Bytes offered behind those a framer's bit takes from do not change it. -/
theorem framerBit_append {b b' : Block} {pIn rest : List Byte} {bit : Bit} (h : framerBit b pIn = some (bit, b', rest))
    (offered : List Byte) : framerBit b (pIn ++ offered) = some (bit, b', rest ++ offered) := by
  rcases framerBit_cases b pIn with ⟨hk, h'⟩ | ⟨_, _, _, h'⟩ | ⟨x, r, hk, hj, rfl, h'⟩ | ⟨hk, hj, h'⟩ <;>
    rw [h'] at h <;> cases h
  · exact framerBit_length hk _
  · exact framerBit_newByte_cons hk hj x _
  · exact framerBit_laterBit hk hj _

/-- An enabled beat does the same before and after the host's offers and collections of items that are there (R46). -/
theorem beatOf_after {sw : Nat} {i : Instr} {b b' : Block} {q q' : Streams sw} {e : HostItems sw} (he : e.There q)
    (h : beatOf i b q = some (b', q')) : beatOf i b (q.after e) = some (b', q'.after e) := by
  obtain ⟨hS, hP, hB⟩ := he
  have hsIn : ∀ x rest, q.sIn = x :: rest → (q.after e).sIn = x :: (rest ++ e.offS) := fun x rest hs =>
    congrArg (· ++ e.offS) hs
  have hpIn : ∀ r, framerBit b q.pIn = some r →
      framerBit b (q.after e).pIn = some (r.1, r.2.1, r.2.2 ++ e.offP) := fun _ hf => framerBit_append hf e.offP
  cases i <;> simp only [beatOf] at h ⊢
  case frame =>
    rw [beatFrame_eq, Option.map_eq_some_iff] at h
    obtain ⟨r, hf, heq⟩ := h
    cases heq
    rw [beatFrame_eq, hpIn r hf]
    simp [Streams.after, List.drop_append_of_le_length hB]
  case embed =>
    cases hs : q.sIn with
    | nil => rw [beatEmbed_nil b hs] at h; cases h
    | cons x rest =>
      by_cases hk : b.pos < b.w.nbits
      · rw [beatEmbed_bit hs hk, Option.map_eq_some_iff] at h
        obtain ⟨r, hf, heq⟩ := h
        cases heq
        rw [beatEmbed_bit (hsIn x rest hs) hk, hpIn r hf]
        simp [Streams.after, List.drop_append_of_le_length hS]
      · rw [beatEmbed_past hs hk] at h
        cases h
        rw [beatEmbed_past (hsIn x rest hs) hk]
        simp [Streams.after, List.drop_append_of_le_length hS]
  case embedRaw =>
    cases hs : q.sIn with
    | nil => rw [beatEmbedRaw_nil b hs] at h; cases h
    | cons x rest =>
      by_cases hk : b.pos < b.w.nbits
      · cases hbits : q.bIn with
        | nil => rw [beatEmbedRaw_noBit hk hbits] at h; cases h
        | cons bit bRest =>
          have hbits' : (q.after e).bIn = bit :: (bRest ++ e.offB) := congrArg (· ++ e.offB) hbits
          rw [beatEmbedRaw_bit hs hk hbits] at h
          cases h
          rw [beatEmbedRaw_bit (hsIn x rest hs) hk hbits']
          simp [Streams.after, List.drop_append_of_le_length hS]
      · rw [beatEmbedRaw_past hs hk] at h
        cases h
        rw [beatEmbedRaw_past (hsIn x rest hs) hk]
        simp [Streams.after, List.drop_append_of_le_length hS]
  case extract =>
    cases hs : q.sIn with
    | nil => rw [beatExtract_nil b hs] at h; cases h
    | cons x rest =>
      by_cases hk : b.pos.toNat < 32
      · rw [beatExtract_length hs hk] at h
        cases h
        rw [beatExtract_length (hsIn x rest hs) hk]
        rfl
      · rw [beatExtract_payload hs hk] at h
        cases h
        rw [beatExtract_payload (hsIn x rest hs) hk]
        by_cases hj : (b.pos.toNat - 32) % 8 = 7 <;> simp [Streams.after, hj, List.drop_append_of_le_length hP]

/-! ### Operand writes beside a beat (R76) -/

/-- The block with other operands. -/
def Block.withOperands (b : Block) (p n m : DWord) : Block :=
  { b with payloadLen := p, sampleCount := n, bitCount := m }

theorem endBeat_withOperands (b : Block) (p n m : DWord) :
    endBeat (b.withOperands p n m) = (endBeat b).withOperands p n m := by
  rcases endBeat_cases b with ⟨htotal, h⟩ | ⟨htotal, h⟩ <;> rw [h]
  · exact if_pos htotal
  · exact if_neg htotal

theorem framerBit_withOperands (b : Block) (p n m : DWord) (pIn : List Byte) :
    framerBit (b.withOperands p n m) pIn =
      (framerBit b pIn).map fun r => (r.1, r.2.1.withOperands p n m, r.2.2) := by
  rcases framerBit_cases b pIn with ⟨hk, h⟩ | ⟨hk, hj, rfl, h⟩ | ⟨x, rest, hk, hj, rfl, h⟩ | ⟨hk, hj, h⟩ <;> rw [h]
  · exact framerBit_length (b := b.withOperands p n m) hk pIn
  · exact framerBit_newByte_nil (b := b.withOperands p n m) hk hj
  · exact framerBit_newByte_cons (b := b.withOperands p n m) hk hj x rest
  · exact framerBit_laterBit (b := b.withOperands p n m) hk hj pIn

theorem lengthCheck_withOperands (b : Block) (p n m : DWord) :
    lengthCheck (b.withOperands p n m) = (lengthCheck b).withOperands p n m := by
  rcases lengthCheck_cases b with ⟨hn, h⟩ | ⟨hn, h0, h⟩ | ⟨hn, h0, h⟩ <;> rw [h]
  · exact if_pos hn
  · exact (if_neg (BitVec.not_lt.mpr hn)).trans (if_pos h0)
  · exact (if_neg (BitVec.not_lt.mpr hn)).trans (if_neg h0)

theorem lengthBeat_withOperands (b : Block) (p n m : DWord) (bit : Bit) :
    lengthBeat (b.withOperands p n m) bit = (lengthBeat b bit).withOperands p n m := by
  by_cases hk : b.pos.toNat = 31
  · have hk' : (b.withOperands p n m).pos.toNat = 31 := hk
    rw [lengthBeat, lengthBeat, if_pos hk, if_pos hk', ← lengthCheck_withOperands]
    rfl
  · have hk' : ¬ (b.withOperands p n m).pos.toNat = 31 := hk
    rw [lengthBeat, lengthBeat, if_neg hk, if_neg hk']
    rfl

/-- A beat reads no operand register and keeps them (R54, R76). -/
theorem beatOf_withOperands {sw : Nat} (i : Instr) (b : Block) (p n m : DWord) (q : Streams sw) :
    beatOf i (b.withOperands p n m) q = (beatOf i b q).map fun r => (r.1.withOperands p n m, r.2) := by
  cases i <;> simp only [beatOf]
  case frame =>
    simp only [beatFrame_eq, framerBit_withOperands, Option.map_map, Function.comp_def, endBeat_withOperands]
  case embed =>
    cases hs : q.sIn with
    | nil => rw [beatEmbed_nil _ hs, beatEmbed_nil _ hs]; rfl
    | cons x rest =>
      by_cases hk : b.pos < b.w.nbits
      · have hk' : (b.withOperands p n m).pos < (b.withOperands p n m).w.nbits := hk
        simp only [beatEmbed_bit hs hk, beatEmbed_bit hs hk', framerBit_withOperands, Option.map_map, Function.comp_def,
          endBeat_withOperands]
      · have hk' : ¬ (b.withOperands p n m).pos < (b.withOperands p n m).w.nbits := hk
        rw [beatEmbed_past hs hk, beatEmbed_past hs hk', endBeat_withOperands]
        rfl
  case embedRaw =>
    cases hs : q.sIn with
    | nil => rw [beatEmbedRaw_nil _ hs, beatEmbedRaw_nil _ hs]; rfl
    | cons x rest =>
      by_cases hk : b.pos < b.w.nbits
      · have hk' : (b.withOperands p n m).pos < (b.withOperands p n m).w.nbits := hk
        cases hbits : q.bIn with
        | nil => rw [beatEmbedRaw_noBit hk hbits, beatEmbedRaw_noBit hk' hbits]; rfl
        | cons bit bRest =>
          rw [beatEmbedRaw_bit hs hk hbits, beatEmbedRaw_bit hs hk' hbits, endBeat_withOperands]
          rfl
      · have hk' : ¬ (b.withOperands p n m).pos < (b.withOperands p n m).w.nbits := hk
        rw [beatEmbedRaw_past hs hk, beatEmbedRaw_past hs hk', endBeat_withOperands]
        rfl
  case extract =>
    cases hs : q.sIn with
    | nil => rw [beatExtract_nil _ hs, beatExtract_nil _ hs]; rfl
    | cons x rest =>
      by_cases hk : b.pos.toNat < 32
      · have hk' : (b.withOperands p n m).pos.toNat < 32 := hk
        rw [beatExtract_length hs hk, beatExtract_length hs hk', lengthBeat_withOperands]
        rfl
      · have hk' : ¬ (b.withOperands p n m).pos.toNat < 32 := hk
        rw [beatExtract_payload hs hk, beatExtract_payload hs hk', Option.map_some, ← endBeat_withOperands]
        rfl

/-- A write to an operand register is an update of the operands that depends on them alone (R40). -/
theorem writeBlock_eq_withOperands {i : Nat} (h4 : 4 ≤ i) (h9 : i ≤ 9) (d : Word) :
    ∃ f g h : DWord → DWord, ∀ b : Block,
      writeBlock i d b = b.withOperands (f b.payloadLen) (g b.sampleCount) (h b.bitCount) := by
  have hi : i = 4 ∨ i = 5 ∨ i = 6 ∨ i = 7 ∨ i = 8 ∨ i = 9 := by omega
  rcases hi with rfl | rfl | rfl | rfl | rfl | rfl
  · exact ⟨(withLo · d), id, id, fun _ => rfl⟩
  · exact ⟨(withHi · d), id, id, fun _ => rfl⟩
  · exact ⟨id, (withLo · d), id, fun _ => rfl⟩
  · exact ⟨id, (withHi · d), id, fun _ => rfl⟩
  · exact ⟨id, id, (withLo · d), fun _ => rfl⟩
  · exact ⟨id, id, (withHi · d), fun _ => rfl⟩

/-- Such a write leaves the running command and its working fields as they are. -/
theorem writeBlock_operand_keeps {i : Nat} (h4 : 4 ≤ i) (h9 : i ≤ 9) (d : Word) (b : Block) :
    (writeBlock i d b).busy = b.busy ∧ (writeBlock i d b).w = b.w := by
  obtain ⟨f, g, h, hw⟩ := writeBlock_eq_withOperands h4 h9 d
  rw [hw]
  exact ⟨rfl, rfl⟩

/-- An enabled beat does the same before and after a write to an operand register (R76). -/
theorem beatOf_writeBlock {sw i : Nat} (h4 : 4 ≤ i) (h9 : i ≤ 9) (d : Word) {j : Instr} {b b' : Block}
    {q q' : Streams sw} (h : beatOf j b q = some (b', q')) :
    beatOf j (writeBlock i d b) q = some (writeBlock i d b', q') := by
  obtain ⟨f, g, k, hw⟩ := writeBlock_eq_withOperands h4 h9 d
  obtain ⟨_, _, hp, hn, hm, _⟩ := beatOf_flags h
  rw [hw, hw, beatOf_withOperands, h, Option.map_some, hp, hn, hm]

/-! ### Quiet moves (R46, R76) -/

/-- The machine after offers and collections, the latter recorded for the host. -/
def State.after {sw : Nat} (s : State sw) (e : HostItems sw) (got : List (Seen sw)) : State sw :=
  { s with streams := s.streams.after e, seen := s.seen ++ got }

/-- What a quiet move of `s` does: offers and collections of items that are there, the same in every state whose output
queues begin with those of `s`, or a write to an operand register. -/
theorem quietMove_cases {sw : Nat} {s : State sw} {m : Move sw} (h : s.quietMove m = true) :
    (∃ (e : HostItems sw) (got : List (Seen sw)), e.There s.streams ∧
      ∀ t : State sw, s.streams.sOut <+: t.streams.sOut → s.streams.pOut <+: t.streams.pOut →
        s.streams.bOut <+: t.streams.bOut → runMove m t = .next (t.after e got)) ∨
    (∃ i d, m = .write i d ∧ 4 ≤ i ∧ i ≤ 9) := by
  cases m with
  | offerS v =>
    refine .inl ⟨{ offS := [v] }, [], ⟨Nat.zero_le _, Nat.zero_le _, Nat.zero_le _⟩, fun t _ _ _ => ?_⟩
    simp [runMove, offerSample, State.after, Streams.after, State.withStreams]
  | offerP v =>
    refine .inl ⟨{ offP := [v] }, [], ⟨Nat.zero_le _, Nat.zero_le _, Nat.zero_le _⟩, fun t _ _ _ => ?_⟩
    simp [runMove, offerByte, State.after, Streams.after, State.withStreams]
  | offerB v =>
    refine .inl ⟨{ offB := [v] }, [], ⟨Nat.zero_le _, Nat.zero_le _, Nat.zero_le _⟩, fun t _ _ _ => ?_⟩
    simp [runMove, offerBit, State.after, Streams.after, State.withStreams]
  | collectS =>
    cases hq : s.streams.sOut with
    | nil => simp [State.quietMove, hq] at h
    | cons v rest =>
      refine .inl ⟨{ takeS := 1 }, [.sample v], ⟨by simp [hq], Nat.zero_le _, Nat.zero_le _⟩, ?_⟩
      rintro t ⟨more, ht⟩ _ _
      simp [runMove, collectSample, State.after, Streams.after, State.withStreams, State.withSeen, ← ht]
  | collectP =>
    cases hq : s.streams.pOut with
    | nil => simp [State.quietMove, hq] at h
    | cons v rest =>
      refine .inl ⟨{ takeP := 1 }, [.byte v], ⟨Nat.zero_le _, by simp [hq], Nat.zero_le _⟩, ?_⟩
      rintro t _ ⟨more, ht⟩ _
      simp [runMove, collectByte, State.after, Streams.after, State.withStreams, State.withSeen, ← ht]
  | collectB =>
    cases hq : s.streams.bOut with
    | nil => simp [State.quietMove, hq] at h
    | cons v rest =>
      refine .inl ⟨{ takeB := 1 }, [.bit v], ⟨Nat.zero_le _, Nat.zero_le _, by simp [hq]⟩, ?_⟩
      rintro t _ _ ⟨more, ht⟩
      simp [runMove, collectBit, State.after, Streams.after, State.withStreams, State.withSeen, ← ht]
  | write i d => exact .inr ⟨i, d, rfl, of_decide_eq_true h⟩
  | read _ | engine | wait | waitDone | assertReset | releaseReset => cases h

/-! ### Sample widths (R8) -/

/-- Cutting a sample down commutes with replacing its bit 0 (R83). -/
theorem setLsb_setWidth {sw sw' : Nat} (h1 : 1 ≤ sw') (hle : sw' ≤ sw) (s : BitVec sw) (b : Bit) :
    setLsb (s.setWidth sw') b = (setLsb s b).setWidth sw' := by
  refine BitVec.eq_of_getLsbD_eq fun j hj => ?_
  have hsw : 0 < sw := Nat.lt_of_lt_of_le h1 hle
  have hsw' : 0 < sw' := h1
  rw [BitVec.getLsbD_setWidth, getLsbD_setLsb, getLsbD_setLsb, BitVec.getLsbD_setWidth]
  by_cases h0 : j = 0 <;> simp [h0, hj, hsw, hsw']

/-- Cutting a sample down keeps its bit 0. -/
theorem lsb_setWidth {sw sw' : Nat} (h1 : 1 ≤ sw') (s : BitVec sw) : lsb (s.setWidth sw') = lsb s := by
  rw [lsb, lsb, BitVec.getLsbD_setWidth, decide_eq_true (Nat.lt_of_lt_of_le Nat.zero_lt_one h1), Bool.true_and]

/-- A beat on samples cut down is the beat, its queues cut down alike (R8). -/
theorem beatOf_narrow {sw sw' : Nat} (h1 : 1 ≤ sw') (hle : sw' ≤ sw) (i : Instr) (b : Block) (q : Streams sw) :
    beatOf i b (q.narrow sw') = (beatOf i b q).map fun r => (r.1, r.2.narrow sw') := by
  have hnil : q.sIn = [] → (q.narrow sw').sIn = [] := fun hs => by rw [Streams.narrow, hs]; rfl
  have hcons : ∀ x rest, q.sIn = x :: rest →
      (q.narrow sw').sIn = x.setWidth sw' :: rest.map (·.setWidth sw') := fun x rest hs => by
    rw [Streams.narrow, hs]; rfl
  cases i <;> simp only [beatOf]
  case frame =>
    simp only [beatFrame_eq, Option.map_map, Function.comp_def]
    rfl
  case embed =>
    cases hs : q.sIn with
    | nil => rw [beatEmbed_nil _ hs, beatEmbed_nil _ (hnil hs)]; rfl
    | cons x rest =>
      by_cases hk : b.pos < b.w.nbits
      · rw [beatEmbed_bit hs hk, beatEmbed_bit (hcons x rest hs) hk]
        simp [Streams.narrow, Function.comp_def, setLsb_setWidth h1 hle]
      · rw [beatEmbed_past hs hk, beatEmbed_past (hcons x rest hs) hk]
        simp [Streams.narrow]
  case embedRaw =>
    cases hs : q.sIn with
    | nil => rw [beatEmbedRaw_nil _ hs, beatEmbedRaw_nil _ (hnil hs)]; rfl
    | cons x rest =>
      by_cases hk : b.pos < b.w.nbits
      · cases hbits : q.bIn with
        | nil =>
          have hbits' : (q.narrow sw').bIn = [] := hbits
          rw [beatEmbedRaw_noBit hk hbits, beatEmbedRaw_noBit hk hbits']; rfl
        | cons bit bRest =>
          have hbits' : (q.narrow sw').bIn = bit :: bRest := hbits
          rw [beatEmbedRaw_bit hs hk hbits, beatEmbedRaw_bit (hcons x rest hs) hk hbits']
          simp [Streams.narrow, setLsb_setWidth h1 hle]
      · rw [beatEmbedRaw_past hs hk, beatEmbedRaw_past (hcons x rest hs) hk]
        simp [Streams.narrow]
  case extract =>
    cases hs : q.sIn with
    | nil => rw [beatExtract_nil _ hs, beatExtract_nil _ (hnil hs)]; rfl
    | cons x rest =>
      by_cases hk : b.pos.toNat < 32
      · rw [beatExtract_length hs hk, beatExtract_length (hcons x rest hs) hk, lsb_setWidth h1]
        rfl
      · rw [beatExtract_payload hs hk, beatExtract_payload (hcons x rest hs) hk, lsb_setWidth h1]
        rfl

end Sys2Proof.Machine

namespace Sys2Proof.Proofs

open Sys2Proof Sys2Proof.Machine

/-- Settles O53: an offer or a collection leaves the beat's items and its block alone, and an operand write leaves what
the beat reads alone (R46, R50, R76). -/
theorem quietMovesCommuteWithBeats : Obligations.QuietMovesCommuteWithBeats := by
  intro s m hbeat hquiet
  obtain ⟨i, b, q, hr, hb, ho, hq⟩ := beatEnabled_cases hbeat
  refine ⟨(s.withBlock b).withStreams q, ?_⟩
  have hturn := engineTurn_running_beat ⟨hr, hb, ho⟩ hq
  rcases quietMove_cases hquiet with ⟨e, got, he, hmove⟩ | ⟨j, d, rfl, h4, h9⟩
  · obtain ⟨_, _, _, ⟨x, _, hS⟩, ⟨y, _, hP⟩, ⟨z, _, hB⟩⟩ := beatOf_movesAtMostOne hq
    have hrun : (s.after e got).running i := ⟨hr, hb, ho⟩
    exact ⟨_, _, hturn, hmove s (List.prefix_refl _) (List.prefix_refl _) (List.prefix_refl _),
      hmove _ ⟨x, hS.symm⟩ ⟨y, hP.symm⟩ ⟨z, hB.symm⟩, engineTurn_running_beat hrun (beatOf_after he hq)⟩
  · obtain ⟨hbusy, hw⟩ := writeBlock_operand_keeps h4 h9 d s.block
    have hmove : ∀ t : State, t.rst = false → runMove (.write j d) t = .next (t.withBlock (writeBlock j d t.block)) :=
      fun t ht => by rw [runMove, regWrite_eq (by omega), State.onBlock_released ht]
    have hrun : (s.withBlock (writeBlock j d s.block)).running i :=
      ⟨hr, hbusy.trans hb, (congrArg Work.op hw).trans ho⟩
    exact ⟨_, _, hturn, hmove s hr, hmove _ hr, engineTurn_running_beat hrun (beatOf_writeBlock h4 h9 d hq)⟩

/-- Settles O60: at width 16 the machine of any width is this one by definition, and a beat reads of a sample bit 0
alone and keeps the rest (R8, R83, R96). -/
theorem beatsAgreeAtEveryWidth : Obligations.BeatsAgreeAtEveryWidth :=
  ⟨exec_eq_execAt, core_eq_machineAt, fun _ _ i b q h1 hle => beatOf_narrow h1 hle i b q⟩

end Sys2Proof.Proofs
end

section
/-!
The proofs about whole commands (41_framer.md, 42_embedder.md, 43_extractor.md): for each command a predicate that holds
after its command word and after every further beat, and what it says after the last one.
-/

namespace Sys2Proof.Machine

/-! ### Turns in a row (R72) -/

/-- Turns in a row after turns in a row. -/
theorem engineBeats_add {sw : Nat} {m : Nat} {s t : State sw} (h : engineBeats m s = .next t) (n : Nat) :
    engineBeats (m + n) s = engineBeats n t := by
  induction m generalizing s with
  | zero => rw [engineBeats] at h; cases h; rw [Nat.zero_add]
  | succ m ih =>
    rw [Nat.succ_add, engineBeats]
    rw [engineBeats] at h
    cases hturn : engineTurn s with
    | next s1 => rw [hturn] at h; exact ih h
    | fault f => rw [hturn] at h; cases h
    | refused r => rw [hturn] at h; cases h

theorem engineBeats_one {sw : Nat} {s t : State sw} (h : engineTurn s = .next t) : engineBeats 1 s = .next t := by
  rw [engineBeats, h]
  rfl

/-- A predicate on the position that every turn below `total` carries on holds after any number of turns up to it. -/
theorem engineBeats_of_carried {sw total : Nat} {P : Nat → State sw → Prop}
    (hturn : ∀ k s, k < total → P k s → ∃ t, engineTurn s = .next t ∧ P (k + 1) t) (n : Nat) {k : Nat} {s : State sw}
    (hle : k + n ≤ total) (h : P k s) : ∃ u, engineBeats n s = .next u ∧ P (k + n) u := by
  induction n generalizing k s with
  | zero => exact ⟨s, rfl, h⟩
  | succ n ih =>
    obtain ⟨t, ht, hP⟩ := hturn k s (by omega) h
    obtain ⟨u, hu, hP'⟩ := ih (k := k + 1) (by omega) hP
    refine ⟨u, ?_, ?_⟩
    · rw [engineBeats, ht]
      exact hu
    · rwa [Nat.add_right_comm] at hP'

/-- The command `i` has taken `k` of its `N` beats, without an error (R71, R72). -/
structure Progress {sw : Nat} (i : Instr) (N k : Nat) (s : State sw) : Prop where
  rst : s.rst = false
  op : s.block.w.op = opcodeOf i
  total : s.block.w.total.toNat = N
  pos : s.block.pos.toNat = k
  busy : s.block.busy = decide (k < N)
  done : s.block.done = decide (N ≤ k)
  code : s.block.errCode = .noError
  errA : s.block.errA = 0#64
  errB : s.block.errB = 0#64

theorem Progress.running {sw N k : Nat} {i : Instr} {s : State sw} (h : Progress i N k s) (hk : k < N) :
    s.running i :=
  ⟨h.rst, by rw [h.busy, decide_eq_true hk], h.op⟩

/-- After the last beat the command has succeeded (R71). -/
theorem Progress.succeeded {sw N : Nat} {i : Instr} {s : State sw} (h : Progress i N N s) :
    s.block.succeeded :=
  ⟨by rw [h.busy, decide_eq_false (Nat.lt_irrefl N)], by rw [h.done, decide_eq_true le_rfl], h.code, h.errA, h.errB⟩

/-- The end of a beat, with some byte held and other queues, is one beat further (R72). -/
theorem Progress.endBeat {sw N k : Nat} {i : Instr} {s : State sw} (h : Progress i N k s) (hk : k < N)
    (byteSr : Byte) (q : Streams sw) :
    Progress i N (k + 1)
      ((s.withBlock (Machine.endBeat { s.block with w := { s.block.w with byteSr := byteSr } })).withStreams q) := by
  have hlt : s.block.pos < s.block.w.total := by rw [BitVec.lt_def, h.pos, h.total]; exact hk
  have hpos : (s.block.pos + 1#64).toNat = k + 1 := by rw [pos_add_one_toNat hlt, h.pos]
  have htotal : s.block.pos + 1#64 = s.block.w.total ↔ k + 1 = N := by rw [← BitVec.toNat_inj, hpos, h.total]
  rcases endBeat_cases { s.block with w := { s.block.w with byteSr := byteSr } } with ⟨heq, hb⟩ | ⟨hne, hb⟩ <;> rw [hb]
  · have hlast : k + 1 = N := htotal.mp heq
    exact ⟨h.rst, h.op, h.total, hpos, (decide_eq_false (by omega)).symm, (decide_eq_true (by omega)).symm, rfl, h.errA,
      h.errB⟩
  · have hmore : k + 1 ≠ N := fun hlast => hne (htotal.mpr hlast)
    refine ⟨h.rst, h.op, h.total, hpos, ?_, ?_, h.code, h.errA, h.errB⟩
    · exact h.busy.trans (decide_eq_decide.mpr (by omega))
    · exact h.done.trans (decide_eq_decide.mpr (by omega))

/-! ### The framer along a payload (R80, R88) -/

/-- The framed bit at position `k` (R62, R78). -/
theorem frameBits_getElem? {p : List Byte} {k : Nat} (hk : k < 32 + 8 * p.length) :
    (frameBits p)[k]? = some (framebit (BitVec.ofNat 32 p.length) p k) := by
  rw [frameBits_eq_map_framebit, List.getElem?_map, List.getElem?_range hk, Option.map_some]

/-- The framer stands before position `k` of the payload `p`: the bytes begun are taken, the last of them is held while
it is not finished, and `rest` is offered behind the payload. -/
structure FramerAt (p rest : List Byte) (k : Nat) (w : Work) (pIn : List Byte) : Prop where
  len : w.len = BitVec.ofNat 32 p.length
  queue : pIn = p.drop ((k - 32 + 7) / 8) ++ rest
  held : 32 ≤ k → (k - 32) % 8 ≠ 0 → w.byteSr = p.getD ((k - 32) / 8) 0#8

/-- Before the end of the payload the framer's bit is the framed bit of the position, and the framer stands before the
next position after it. -/
theorem FramerAt.bit {p rest pIn : List Byte} {b : Block} (h : FramerAt p rest b.pos.toNat b.w pIn)
    (hk : b.pos.toNat < 32 + 8 * p.length) :
    ∃ byteSr pIn', framerBit b pIn = some (framebit (BitVec.ofNat 32 p.length) p b.pos.toNat,
        { b with w := { b.w with byteSr := byteSr } }, pIn') ∧
      FramerAt p rest (b.pos.toNat + 1) { b.w with byteSr := byteSr } pIn' := by
  obtain ⟨hlen, hqueue, hheld⟩ := h
  by_cases h32 : b.pos.toNat < 32
  · have htaken : (b.pos.toNat + 1 - 32 + 7) / 8 = (b.pos.toNat - 32 + 7) / 8 := by omega
    refine ⟨b.w.byteSr, pIn, ?_, hlen, by rw [hqueue, htaken], fun h => by omega⟩
    rw [framerBit_length h32, hlen, framebit, if_pos h32]
  have hge : 32 ≤ b.pos.toNat := Nat.not_lt.mp h32
  by_cases hj : (b.pos.toNat - 32) % 8 = 0
  · have hn : (b.pos.toNat - 32) / 8 < p.length := by omega
    have htaken : (b.pos.toNat - 32 + 7) / 8 = (b.pos.toNat - 32) / 8 := by omega
    have htaken' : (b.pos.toNat + 1 - 32 + 7) / 8 = (b.pos.toNat - 32) / 8 + 1 := by omega
    have hbyte : (b.pos.toNat + 1 - 32) / 8 = (b.pos.toNat - 32) / 8 := by omega
    have hget : p.getD ((b.pos.toNat - 32) / 8) 0#8 = p[(b.pos.toNat - 32) / 8] := List.getD_eq_getElem _ _ hn
    rw [htaken, List.drop_eq_getElem_cons hn, List.cons_append] at hqueue
    refine ⟨p[(b.pos.toNat - 32) / 8], p.drop ((b.pos.toNat - 32) / 8 + 1) ++ rest, ?_, hlen, by rw [htaken'],
      fun _ _ => by rw [hbyte, hget]⟩
    rw [hqueue, framerBit_newByte_cons hge hj, framebit, if_neg h32, hget, hj]
  · have htaken : (b.pos.toNat + 1 - 32 + 7) / 8 = (b.pos.toNat - 32 + 7) / 8 := by omega
    have hbyte : (b.pos.toNat + 1 - 32) % 8 ≠ 0 → (b.pos.toNat + 1 - 32) / 8 = (b.pos.toNat - 32) / 8 := by omega
    refine ⟨b.w.byteSr, pIn, ?_, hlen, by rw [hqueue, htaken], fun _ hj' => by rw [hheld hge hj, hbyte hj']⟩
    rw [framerBit_laterBit hge hj, framebit, if_neg h32, ← hheld hge hj]

/-- At the end of the payload the framer has taken all of it. -/
theorem FramerAt.queue_end {p rest pIn : List Byte} {w : Work} (h : FramerAt p rest (32 + 8 * p.length) w pIn) :
    pIn = rest := by
  have htaken : (32 + 8 * p.length - 32 + 7) / 8 = p.length := by omega
  rw [h.queue, htaken, List.drop_length, List.nil_append]

/-- The framer at the start of a command. -/
theorem FramerAt.start {p rest pIn : List Byte} {w : Work} (hlen : w.len = BitVec.ofNat 32 p.length)
    (hqueue : pIn = p ++ rest) : FramerAt p rest 0 w pIn :=
  ⟨hlen, hqueue, fun h => absurd h (by decide)⟩

/-- One more item of a sequence. -/
theorem append_take_succ {α : Type} {l : List α} {k : Nat} {x : α} (h : l[k]? = some x) (out : List α) :
    out ++ l.take k ++ [x] = out ++ l.take (k + 1) := by
  rw [List.append_assoc, List.take_add_one, h, Option.toList_some]

/-! ### FRAME (R79, R81) -/

/-- FRAME, started in `s0` with the payload `p`, has taken `k` beats. -/
structure FrameRun {sw : Nat} (s0 : State sw) (p rest : List Byte) (k : Nat) (s : State sw) : Prop where
  progress : Progress .frame (32 + 8 * p.length) k s
  framer : FramerAt p rest k s.block.w s.streams.pIn
  streams : s.streams = { s0.streams with
    pIn := s.streams.pIn, bOut := s0.streams.bOut ++ (frameBits p).take k }
  decodedLen : s.block.decodedLen = 0#32

theorem FrameRun.turn {sw k : Nat} {s0 s : State sw} {p rest : List Byte} (hk : k < 32 + 8 * p.length)
    (h : FrameRun s0 p rest k s) : ∃ t, engineTurn s = .next t ∧ FrameRun s0 p rest (k + 1) t := by
  obtain ⟨hprog, hframer, hstreams, hdec⟩ := h
  have hpos := hprog.pos
  obtain ⟨byteSr, pIn, hbit, hframer'⟩ := FramerAt.bit (b := s.block) (by rw [hpos]; exact hframer) (by rwa [hpos])
  rw [hpos] at hbit hframer'
  refine ⟨_, engineTurn_frame_beat (hprog.running hk) hbit, hprog.endBeat hk byteSr _, ?_, ?_, ?_⟩
  · simpa using hframer'
  · rw [State.withStreams_streams, hstreams, append_take_succ (frameBits_getElem? hk)]
  · obtain ⟨_, _, _, _, _, _, hkeep, _⟩ := endBeat_frame { s.block with w := { s.block.w with byteSr := byteSr } }
    exact hkeep.trans hdec

/-! ### EMBED (R87, R89) -/

/-- EMBED, started in `s0` with the payload `p` and the samples `smp`, has taken `k` beats. -/
structure EmbedRun {sw : Nat} (s0 : State sw) (p pRest : List Byte) (smp sRest : List (BitVec sw)) (k : Nat)
    (s : State sw) : Prop where
  progress : Progress .embed smp.length k s
  nbits : s.block.w.nbits.toNat = 32 + 8 * p.length
  framer : FramerAt p pRest (min k (32 + 8 * p.length)) s.block.w s.streams.pIn
  streams : s.streams = { s0.streams with
    pIn := s.streams.pIn, sIn := smp.drop k ++ sRest,
    sOut := s0.streams.sOut ++ (embedBits smp (frameBits p)).take k }

theorem EmbedRun.turn {sw k : Nat} {s0 s : State sw} {p pRest : List Byte} {smp sRest : List (BitVec sw)}
    (hk : k < smp.length) (h : EmbedRun s0 p pRest smp sRest k s) :
    ∃ t, engineTurn s = .next t ∧ EmbedRun s0 p pRest smp sRest (k + 1) t := by
  obtain ⟨hprog, hnbits, hframer, hstreams⟩ := h
  have hpos := hprog.pos
  have hsmp : smp[k]? = some smp[k] := List.getElem?_eq_getElem hk
  have hsIn : s.streams.sIn = smp[k] :: (smp.drop (k + 1) ++ sRest) := by
    rw [hstreams, List.drop_eq_getElem_cons hk, List.cons_append]
  rcases Nat.lt_or_ge k (32 + 8 * p.length) with hlt | hge
  · have hmin : min k (32 + 8 * p.length) = k := Nat.min_eq_left hlt.le
    have hmin' : min (k + 1) (32 + 8 * p.length) = k + 1 := Nat.min_eq_left hlt
    rw [hmin, ← hpos] at hframer
    obtain ⟨byteSr, pIn, hbit, hframer'⟩ := FramerAt.bit (b := s.block) hframer (by rwa [hpos])
    rw [hpos] at hbit hframer'
    have hsOut := embedBits_getElem?_bit (frameBits_getElem? hlt) smp
    rw [hsmp, Option.map_some] at hsOut
    refine ⟨_, engineTurn_embed_beat (hprog.running hk) hsIn (by rwa [hpos, hnbits]) hbit, hprog.endBeat hk byteSr _,
      ?_, ?_, ?_⟩
    · simpa using hnbits
    · rw [hmin']; simpa using hframer'
    · rw [State.withStreams_streams, hstreams, append_take_succ hsOut]
  · have hmin : min k (32 + 8 * p.length) = min (k + 1) (32 + 8 * p.length) := by omega
    have hsOut := embedBits_getElem?_past (k := k) (bits := frameBits p) (by rwa [frameBits_length]) smp
    rw [hsmp] at hsOut
    refine ⟨_, engineTurn_embed_passThrough (hprog.running hk) hsIn (by rwa [hpos, hnbits]),
      hprog.endBeat hk s.block.w.byteSr _, ?_, ?_, ?_⟩
    · simpa using hnbits
    · rw [← hmin]; simpa using hframer
    · rw [State.withStreams_streams, hstreams, append_take_succ hsOut]

/-! ### EMBED_RAW (R91, R92) -/

/-- EMBED_RAW, started in `s0` with the bits `bits` and the samples `smp`, has taken `k` beats. -/
structure EmbedRawRun {sw : Nat} (s0 : State sw) (bits bRest : List Bit) (smp sRest : List (BitVec sw)) (k : Nat)
    (s : State sw) : Prop where
  progress : Progress .embedRaw smp.length k s
  nbits : s.block.w.nbits.toNat = bits.length
  streams : s.streams = { s0.streams with
    bIn := bits.drop k ++ bRest, sIn := smp.drop k ++ sRest, sOut := s0.streams.sOut ++ (embedBits smp bits).take k }

theorem EmbedRawRun.turn {sw k : Nat} {s0 s : State sw} {bits bRest : List Bit} {smp sRest : List (BitVec sw)}
    (hk : k < smp.length) (h : EmbedRawRun s0 bits bRest smp sRest k s) :
    ∃ t, engineTurn s = .next t ∧ EmbedRawRun s0 bits bRest smp sRest (k + 1) t := by
  obtain ⟨hprog, hnbits, hstreams⟩ := h
  have hpos := hprog.pos
  have hsmp : smp[k]? = some smp[k] := List.getElem?_eq_getElem hk
  have hsIn : s.streams.sIn = smp[k] :: (smp.drop (k + 1) ++ sRest) := by
    rw [hstreams, List.drop_eq_getElem_cons hk, List.cons_append]
  rcases Nat.lt_or_ge k bits.length with hlt | hge
  · have hbIn : s.streams.bIn = bits[k] :: (bits.drop (k + 1) ++ bRest) := by
      rw [hstreams, List.drop_eq_getElem_cons hlt, List.cons_append]
    have hsOut := embedBits_getElem?_bit (List.getElem?_eq_getElem hlt) smp
    rw [hsmp, Option.map_some] at hsOut
    refine ⟨_, engineTurn_embedRaw_beat (hprog.running hk) hsIn (by rwa [hpos, hnbits]) hbIn,
      hprog.endBeat hk s.block.w.byteSr _, ?_, ?_⟩
    · simpa using hnbits
    · rw [State.withStreams_streams, hstreams, append_take_succ hsOut]
  · have hbIn : bits.drop k = bits.drop (k + 1) := by
      rw [List.drop_eq_nil_of_le hge, List.drop_eq_nil_of_le (Nat.le_succ_of_le hge)]
    have hsOut := embedBits_getElem?_past hge smp
    rw [hsmp] at hsOut
    refine ⟨_, engineTurn_embedRaw_passThrough (hprog.running hk) hsIn (by rwa [hpos, hnbits]),
      hprog.endBeat hk s.block.w.byteSr _, ?_, ?_⟩
    · simpa using hnbits
    · rw [State.withStreams_streams, hstreams, append_take_succ hsOut, hbIn]

/-! ### EXTRACT (R98 to R101) -/

/-- Bit `j` of the decoded length is the least-significant bit of sample `j` (R95). -/
theorem testBit_decodedLength {sw j : Nat} (hj : j < 32) (smp : List (BitVec sw)) :
    (decodedLength smp).testBit j = (smp.map lsb).getD j false := by
  rw [decodedLength, testBit_sumBits, List.map_take]
  simp [List.getD_eq_getElem?_getD, hj]

/-- Bit `j` of byte `n` is the least-significant bit of sample `32 + 8 * n + j` (R96). -/
theorem getLsbD_decodedByte {sw n j : Nat} (hj : j < 8) (smp : List (BitVec sw)) :
    (decodedByte smp n).getLsbD j = (smp.map lsb).getD (32 + 8 * n + j) false := by
  rw [decodedByte, BitVec.getLsbD_ofNat, testBit_sumBits, List.map_take, List.map_drop]
  simp [List.getD_eq_getElem?_getD, hj]

/-- The least-significant bit of the sample at an index within the samples. -/
theorem getD_map_lsb {sw k : Nat} {smp : List (BitVec sw)} (hk : k < smp.length) :
    (smp.map lsb).getD k false = lsb smp[k] := by
  simp [List.getD_eq_getElem?_getD, hk]

/-- EXTRACT, started in `s0` with the samples `smp`, has taken `k` beats of the 32 that decode the length. -/
structure LengthRun {sw : Nat} (s0 : State sw) (smp sRest : List (BitVec sw)) (k : Nat) (s : State sw) : Prop where
  progress : Progress .extract 32 k s
  count : s.block.w.n.toNat = smp.length
  bits : ∀ j, j < k → s.block.w.lenSr.getLsbD j = (smp.map lsb).getD j false
  streams : s.streams = { s0.streams with sIn := smp.drop k ++ sRest }

/-- What is common to the beats below position 32: the sample taken, and the length bit written. -/
theorem LengthRun.lengthBit {sw k : Nat} {s0 s : State sw} {smp sRest : List (BitVec sw)} (h32 : k < 32)
    (hk : k < smp.length) (h : LengthRun s0 smp sRest k s) :
    engineTurn s = .next ((s.withStreams { s0.streams with sIn := smp.drop (k + 1) ++ sRest }).withBlock
      (lengthBeat s.block (lsb smp[k]))) ∧
    ∀ j, j < k + 1 → (writeBit s.block.w.lenSr k (lsb smp[k])).getLsbD j = (smp.map lsb).getD j false := by
  have hsIn : s.streams.sIn = smp[k] :: (smp.drop (k + 1) ++ sRest) := by
    rw [h.streams, List.drop_eq_getElem_cons hk, List.cons_append]
  constructor
  · rw [engineTurn_extract_lengthBeat (h.progress.running h32) hsIn (by rwa [h.progress.pos]), h.streams]
  · intro j hj
    rw [getLsbD_writeBit_of_lt h32]
    by_cases hjk : j = k
    · rw [if_pos hjk, hjk, getD_map_lsb hk]
    · rw [if_neg hjk, h.bits j (by omega)]

/-- The beats below position 31 decode one more bit of the length each (R99). -/
theorem LengthRun.turn {sw k : Nat} {s0 s : State sw} {smp sRest : List (BitVec sw)} (hlen : 32 ≤ smp.length)
    (hk : k < 31) (h : LengthRun s0 smp sRest k s) :
    ∃ t, engineTurn s = .next t ∧ LengthRun s0 smp sRest (k + 1) t := by
  obtain ⟨hturn, hbits⟩ := h.lengthBit (by omega) (by omega)
  have hpos := h.progress.pos
  refine ⟨_, hturn, ?_⟩
  obtain ⟨L, rfl, ⟨_, hb⟩ | ⟨h31, _⟩ | ⟨h31, _⟩ | ⟨h31, _⟩⟩ := lengthBeat_cases s.block (lsb smp[k])
  · rw [hb]
    obtain ⟨hrst, hop, htotal, _, hbusy, hdone, hcode, ha, hb⟩ := h.progress
    have hnext : (s.block.pos + 1#64).toNat = k + 1 := by
      rw [pos_add_one_toNat (total := s.block.w.total) (by rw [BitVec.lt_def, hpos, htotal]; omega), hpos]
    refine ⟨⟨hrst, hop, htotal, hnext, ?_, ?_, hcode, ha, hb⟩, h.count, ?_, rfl⟩
    · exact hbusy.trans (decide_eq_decide.mpr (by omega))
    · exact hdone.trans (decide_eq_decide.mpr (by omega))
    · simpa [hpos] using hbits
  all_goals omega

/-- EXTRACT, started in `s0` with the samples `smp` that hold the decoded length, has taken `k` beats, all 32 length
beats among them. -/
structure PayloadRun {sw : Nat} (s0 : State sw) (smp sRest : List (BitVec sw)) (k : Nat) (s : State sw) : Prop where
  progress : Progress .extract (32 + 8 * decodedLength smp) k s
  pastLength : 32 ≤ k
  bits : ∀ j, j < (k - 32) % 8 → s.block.w.byteSr.getLsbD j = (smp.map lsb).getD (k - (k - 32) % 8 + j) false
  streams : s.streams = { s0.streams with
    sIn := smp.drop k ++ sRest,
    pOut := s0.streams.pOut ++ (List.range ((k - 32) / 8)).map (decodedByte smp) }
  decodedLen : s.block.decodedLen.toNat = decodedLength smp

/-- The first payload beat finds no byte begun and none given. -/
theorem PayloadRun.start {sw : Nat} {s0 s : State sw} {smp sRest : List (BitVec sw)}
    (hprog : Progress .extract (32 + 8 * decodedLength smp) 32 s)
    (hstreams : s.streams = { s0.streams with sIn := smp.drop 32 ++ sRest })
    (hdec : s.block.decodedLen.toNat = decodedLength smp) : PayloadRun s0 smp sRest 32 s :=
  ⟨hprog, le_rfl, fun j hj => absurd hj (Nat.not_lt_zero j), by rw [hstreams]; simp, hdec⟩

/-- The byte held after the beat at position `k` has the bits of its samples so far. -/
theorem PayloadRun.getLsbD_payloadByte {sw k : Nat} {s0 s : State sw} {smp sRest : List (BitVec sw)}
    (hk : k < smp.length) (h : PayloadRun s0 smp sRest k s) {j : Nat} (hj : j < (k - 32) % 8 + 1) :
    (payloadByte s.block (lsb smp[k])).getLsbD j = (smp.map lsb).getD (k - (k - 32) % 8 + j) false := by
  have hpast := h.pastLength
  rw [payloadByte, h.progress.pos, getLsbD_writeBit_of_lt (Nat.mod_lt _ (by decide))]
  by_cases hjk : j = (k - 32) % 8
  · have hindex : k - (k - 32) % 8 + j = k := by omega
    rw [if_pos hjk, hindex, getD_map_lsb hk]
  · rw [if_neg hjk, h.bits j (by omega)]

/-- At its bit 7 the byte is the decoded one (R96, R99). -/
theorem PayloadRun.payloadByte_last {sw k : Nat} {s0 s : State sw} {smp sRest : List (BitVec sw)}
    (hk : k < smp.length) (h : PayloadRun s0 smp sRest k s) (h7 : (k - 32) % 8 = 7) :
    payloadByte s.block (lsb smp[k]) = decodedByte smp ((k - 32) / 8) := by
  have hpast := h.pastLength
  refine BitVec.eq_of_getLsbD_eq fun j hj => ?_
  have hindex : k - (k - 32) % 8 + j = 32 + 8 * ((k - 32) / 8) + j := by omega
  rw [h.getLsbD_payloadByte hk (by omega), getLsbD_decodedByte hj, hindex]

/-- The payload beats write one more bit of the byte each, and give it whole at its bit 7 (R99). -/
theorem PayloadRun.turn {sw k : Nat} {s0 s : State sw} {smp sRest : List (BitVec sw)}
    (hfits : 32 + 8 * decodedLength smp ≤ smp.length) (hk : k < 32 + 8 * decodedLength smp)
    (h : PayloadRun s0 smp sRest k s) : ∃ t, engineTurn s = .next t ∧ PayloadRun s0 smp sRest (k + 1) t := by
  have hlt : k < smp.length := Nat.lt_of_lt_of_le hk hfits
  have hwritten := fun j => h.getLsbD_payloadByte hlt (j := j)
  have hlast := h.payloadByte_last hlt
  obtain ⟨hprog, hpast, _, hstreams, hdec⟩ := h
  have hpos := hprog.pos
  have hsIn : s.streams.sIn = smp[k] :: (smp.drop (k + 1) ++ sRest) := by
    rw [hstreams, List.drop_eq_getElem_cons hlt, List.cons_append]
  have hturn := engineTurn_extract_payloadBeat (hprog.running hk) hsIn (by rwa [hpos])
  refine ⟨_, hturn, hprog.endBeat hk _ _, Nat.le_succ_of_le hpast, ?bits, ?streams, ?decodedLen⟩
  case bits =>
    intro j hj
    have hrem : (k + 1 - 32) % 8 = (k - 32) % 8 + 1 := by omega
    have hindex : k + 1 - ((k - 32) % 8 + 1) = k - (k - 32) % 8 := by omega
    rw [hrem] at hj
    rw [hrem, hindex, ← hwritten j hj]
    simp
  case streams =>
    rw [State.withStreams_streams, hpos, hstreams]
    by_cases h7 : (k - 32) % 8 = 7
    · have hcount : (k + 1 - 32) / 8 = (k - 32) / 8 + 1 := by omega
      rw [if_pos h7, hlast h7, hcount, List.range_succ, List.map_append, List.append_assoc]
      rfl
    · have hcount : (k + 1 - 32) / 8 = (k - 32) / 8 := by omega
      rw [if_neg h7, hcount]
  case decodedLen =>
    obtain ⟨_, _, _, _, _, _, hkeep, _⟩ := endBeat_frame
      { s.block with w := { s.block.w with byteSr := payloadByte s.block (lsb smp[k]) } }
    rw [State.withStreams_block, State.withBlock_block, hkeep, hdec]

/-- The beat at position 31 decodes the length; the samples do not cover it, or the payload is to be read (R100). -/
theorem LengthRun.lastTurn {sw : Nat} {s0 s : State sw} {smp sRest : List (BitVec sw)} (hlen : 32 ≤ smp.length)
    (h : LengthRun s0 smp sRest 31 s) :
    ∃ t, engineTurn s = .next t ∧
      ((smp.length < 32 + 8 * decodedLength smp ∧ t.streams = { s0.streams with sIn := smp.drop 32 ++ sRest } ∧
          t.block.failed .truncatedWatermark (32 + 8 * decodedLength smp) smp.length ∧ t.block.pos.toNat = 32 ∧
          t.block.decodedLen.toNat = decodedLength smp) ∨
       (32 + 8 * decodedLength smp ≤ smp.length ∧ PayloadRun s0 smp sRest 32 t)) := by
  obtain ⟨hturn, hbits⟩ := h.lengthBit (by decide) (by omega)
  have hpos := h.progress.pos
  have hcount := h.count
  refine ⟨_, hturn, ?_⟩
  have hL : (writeBit s.block.w.lenSr 31 (lsb smp[31])).toNat = decodedLength smp := by
    refine Nat.eq_of_testBit_eq fun j => ?_
    rcases Nat.lt_or_ge j 32 with hj | hj
    · rw [BitVec.testBit_toNat, hbits j hj, testBit_decodedLength hj]
    · have hbig : 2 ^ 32 ≤ 2 ^ j := Nat.pow_le_pow_right (by decide) hj
      rw [Nat.testBit_lt_two_pow (Nat.lt_of_lt_of_le (BitVec.isLt _) hbig),
        Nat.testBit_lt_two_pow (Nat.lt_of_lt_of_le (decodedLength_lt smp) hbig)]
  have hnext : (s.block.pos + 1#64).toNat = 32 := by rw [pos_add_one_of_toNat_eq_31 hpos]; rfl
  obtain ⟨L, hLeq, hcases⟩ := lengthBeat_cases s.block (lsb smp[31])
  rw [hpos] at hLeq
  rw [← hLeq] at hL
  obtain ⟨hrst, hop, htotal, _, hbusy, hdone, hcode, ha, hb⟩ := h.progress
  rcases hcases with ⟨hne, _⟩ | ⟨_, htrunc, hblock⟩ | ⟨_, hfits, hL0, hblock⟩ | ⟨_, hfits, hL0, hblock⟩
  · exact absurd hpos hne
  · rw [lt_framedCount_iff, hcount, hL] at htrunc
    refine .inl ⟨htrunc, rfl, ?_⟩
    rw [hblock]
    exact ⟨⟨rfl, rfl, rfl, (framedCount_toNat L).trans (by rw [hL]), hcount⟩, hnext, hL⟩
  · rw [BitVec.le_def, framedCount_toNat, hcount, hL] at hfits
    have hzero : decodedLength smp = 0 := by rw [← hL, hL0]; rfl
    refine .inr ⟨hfits, ?_⟩
    rw [hblock]
    exact .start ⟨hrst, hop, by rw [hzero]; exact htotal, hnext, by rw [hzero]; rfl, by rw [hzero]; rfl, rfl, ha, hb⟩
      rfl hL
  · rw [BitVec.le_def, framedCount_toNat, hcount, hL] at hfits
    have hpositive : decodedLength smp ≠ 0 := fun h0 => hL0 (BitVec.eq_of_toNat_eq (hL.trans h0))
    refine .inr ⟨hfits, ?_⟩
    rw [hblock]
    refine .start ⟨hrst, hop, (framedCount_toNat L).trans (by rw [hL]), hnext, ?_, ?_, hcode, ha, hb⟩ rfl hL
    · exact hbusy.trans (decide_eq_decide.mpr (by omega))
    · exact hdone.trans (decide_eq_decide.mpr (by omega))

end Sys2Proof.Machine

namespace Sys2Proof.Proofs

open Sys2Proof Sys2Proof.Machine

/-! ### The block after each command word -/

/-- The framed bit count of a payload length below 2^32 as a 64-bit number. -/
theorem toNat_ofNat_framed {n : Nat} (h : n < 2 ^ 32) : (BitVec.ofNat 64 (32 + 8 * n)).toNat = 32 + 8 * n := by
  rw [BitVec.toNat_ofNat]
  exact Nat.mod_eq_of_lt (by omega)

/-- The latched payload length is the number of bytes. -/
theorem setWidth_eq_ofNat {x : DWord} {n : Nat} (h : x.toNat = n) : x.setWidth 32 = BitVec.ofNat 32 n :=
  BitVec.eq_of_toNat_eq (by rw [BitVec.toNat_setWidth, BitVec.toNat_ofNat, h])

theorem frame_starts_run {s : State} {p rest : List Byte} (hs : s.ready) (hp : p.length < 2 ^ 32)
    (hlen : s.block.payloadLen.toNat = p.length) (hpIn : s.streams.pIn = p ++ rest) :
    ∃ t, exec .frame s = .next t ∧ FrameRun s p rest 0 t := by
  refine ⟨_, frameStarts s hs (by rwa [hlen]), ⟨hs.1, rfl, ?_, rfl, ?_, ?_, rfl, rfl, rfl⟩,
    .start (setWidth_eq_ofNat hlen) hpIn, by simp, rfl⟩
  · exact (toNat_ofNat_framed (by rwa [hlen])).trans (by rw [hlen])
  · exact (decide_eq_true (by omega)).symm
  · exact (decide_eq_false (by omega)).symm

theorem embed_starts_run {s : State} {p pRest : List Byte} {smp sRest : List (BitVec Config.sampleW)} (hs : s.ready)
    (hp : p.length < 2 ^ 32) (hlen : s.block.payloadLen.toNat = p.length)
    (hcount : s.block.sampleCount.toNat = smp.length) (hfits : 32 + 8 * p.length ≤ smp.length)
    (hpIn : s.streams.pIn = p ++ pRest) (hsIn : s.streams.sIn = smp ++ sRest) :
    ∃ t, exec .embed s = .next t ∧ EmbedRun s p pRest smp sRest 0 t := by
  refine ⟨_, embedStarts s hs (by rwa [hlen]) (by rwa [hlen, hcount]), ⟨hs.1, rfl, hcount, rfl, ?_, ?_, rfl, rfl, rfl⟩,
    ?_, ?_, by simp [← hsIn]⟩
  · exact (decide_eq_true (by omega)).symm
  · exact (decide_eq_false (by omega)).symm
  · exact (toNat_ofNat_framed (by rwa [hlen])).trans (by rw [hlen])
  · rw [Nat.zero_min]
    exact .start (setWidth_eq_ofNat hlen) hpIn

theorem embedRaw_starts_run {s : State} {bits bRest : List Bit} {smp sRest : List (BitVec Config.sampleW)}
    (hs : s.ready) (hbits : s.block.bitCount.toNat = bits.length) (hcount : s.block.sampleCount.toNat = smp.length)
    (hfits : bits.length ≤ smp.length) (hbIn : s.streams.bIn = bits ++ bRest) (hsIn : s.streams.sIn = smp ++ sRest) :
    ∃ t, exec .embedRaw s = .next t ∧ EmbedRawRun s bits bRest smp sRest 0 t := by
  refine ⟨_, embedRawStartsOrCompletes s hs (by rwa [hbits, hcount]),
    ⟨hs.1, rfl, hcount, rfl, ?_, ?_, rfl, rfl, rfl⟩, hbits, by simp [← hsIn, ← hbIn]⟩
  · exact decide_eq_decide.mpr (by omega)
  · exact decide_eq_decide.mpr (by omega)

theorem extract_starts_run {s : State} {smp sRest : List (BitVec Config.sampleW)} (hs : s.ready)
    (hcount : s.block.sampleCount.toNat = smp.length) (hlen : 32 ≤ smp.length)
    (hsIn : s.streams.sIn = smp ++ sRest) :
    ∃ t, exec .extract s = .next t ∧ LengthRun s smp sRest 0 t :=
  ⟨_, extractStarts s hs (by rwa [hcount]), ⟨hs.1, rfl, rfl, rfl, rfl, rfl, rfl, rfl, rfl⟩, hcount,
    fun _ hj => absurd hj (Nat.not_lt_zero _), by simp [← hsIn]⟩

/-! ### Whole commands -/

/-- Settles O54: the framer goes from the start of the payload to its end in `32 + 8 * L` turns (R79, R81). -/
theorem frameCommandGivesFrame : Obligations.FrameCommandGivesFrame := by
  intro s p rest hs hp hlen hpIn
  obtain ⟨t, ht, hrun⟩ := frame_starts_run hs hp hlen hpIn
  obtain ⟨u, hu, hrun'⟩ := engineBeats_of_carried (fun k s hk h => FrameRun.turn hk h) _ (Nat.zero_add _).le hrun
  rw [Nat.zero_add] at hrun'
  refine ⟨t, u, frameBits p, ht, hu, (frame_ok_iff p _).mpr ⟨hp, rfl⟩, frameBits_length p, ?_,
    hrun'.progress.succeeded, hrun'.progress.pos, hrun'.decodedLen⟩
  rw [hrun'.streams, hrun'.framer.queue_end, List.take_of_length_le (frameBits_length p).le]

/-- Settles O55: `N` turns take every sample, and the framer ends behind the payload (R87, R89). -/
theorem embedCommandGivesEmbedOfFrame : Obligations.EmbedCommandGivesEmbedOfFrame := by
  intro s p pRest smp sRest hs hp hlen hcount hfits hpIn hsIn
  obtain ⟨t, ht, hrun⟩ := embed_starts_run hs hp hlen hcount hfits hpIn hsIn
  obtain ⟨u, hu, hrun'⟩ := engineBeats_of_carried (fun k s hk h => EmbedRun.turn hk h) _ (Nat.zero_add _).le hrun
  rw [Nat.zero_add] at hrun'
  have hframer := hrun'.framer
  rw [Nat.min_eq_right hfits] at hframer
  refine ⟨t, u, frameBits p, embedBits smp (frameBits p), ht, hu, (frame_ok_iff p _).mpr ⟨hp, rfl⟩,
    embed_of_le (by rwa [frameBits_length]), ?_, hrun'.progress.succeeded, hrun'.progress.pos⟩
  rw [hrun'.streams, hframer.queue_end, List.drop_length, List.nil_append,
    List.take_of_length_le (embedBits_length ..).le]

/-- Settles O56: `N` turns take every sample and every bit (R91, R92). -/
theorem embedRawCommandGivesEmbed : Obligations.EmbedRawCommandGivesEmbed := by
  intro s bits bRest smp sRest hs hbits hcount hfits hbIn hsIn
  obtain ⟨t, ht, hrun⟩ := embedRaw_starts_run hs hbits hcount hfits hbIn hsIn
  obtain ⟨u, hu, hrun'⟩ := engineBeats_of_carried (fun k s hk h => EmbedRawRun.turn hk h) _ (Nat.zero_add _).le hrun
  rw [Nat.zero_add] at hrun'
  refine ⟨t, u, embedBits smp bits, ht, hu, embed_of_le hfits, ?_, hrun'.progress.succeeded, hrun'.progress.pos⟩
  rw [hrun'.streams, List.drop_length, List.drop_eq_nil_of_le hfits, List.nil_append, List.nil_append,
    List.take_of_length_le (embedBits_length ..).le]

/-- Settles O57: 32 turns decode the length; then the command has failed, or `8 * L` more turns give the payload (R98 to
R101). -/
theorem extractCommandGivesExtract : Obligations.ExtractCommandGivesExtract := by
  intro s smp sRest hs hcount hsIn
  rcases Nat.lt_or_ge smp.length 32 with hshort | hlen
  · have hextract : extract smp = .error (.insufficientSamples smp.length) := by rw [extract, if_pos hshort]
    obtain ⟨t, ht, hstreams, _, hpos, _, hfailed⟩ := insufficientSamplesAtAcceptance s hs (by rwa [hcount])
    rw [hextract]
    exact ⟨t, ht, hstreams, hcount ▸ hfailed, congrArg BitVec.toNat hpos, rfl⟩
  obtain ⟨t, ht, hrun⟩ := extract_starts_run hs hcount hlen hsIn
  obtain ⟨t31, ht31, hrun31⟩ := engineBeats_of_carried (total := 31) (fun k s hk h => LengthRun.turn hlen hk h) 31
    (Nat.zero_add _).le hrun
  obtain ⟨t32, ht32, hcases⟩ := hrun31.lastTurn hlen
  have hbeats32 : engineBeats 32 t = .next t32 := (engineBeats_add ht31 1).trans (engineBeats_one ht32)
  rcases hcases with ⟨htrunc, hstreams, hfailed, hpos, hdec⟩ | ⟨hfits, hpayload⟩
  · have hextract : extract smp = .error (.truncatedWatermark (32 + 8 * decodedLength smp) smp.length) := by
      rw [extract, if_neg (Nat.not_lt.mpr hlen), if_pos htrunc]
    rw [hextract]
    exact ⟨t, t32, ht, hbeats32, hstreams, hfailed, hpos, by rw [hdec], rfl⟩
  · have hextract : extract smp = .ok ((List.range (decodedLength smp)).map (decodedByte smp)) := by
      rw [extract, if_neg (Nat.not_lt.mpr hlen), if_neg (Nat.not_lt.mpr hfits)]
    obtain ⟨u, hu, hrun'⟩ := engineBeats_of_carried (fun k s hk h => PayloadRun.turn hfits hk h)
      (8 * decodedLength smp) le_rfl hpayload
    have hcountBytes : (32 + 8 * decodedLength smp - 32) / 8 = decodedLength smp := by omega
    have hstreams := hrun'.streams
    rw [hcountBytes] at hstreams
    rw [hextract]
    simp only [List.length_map, List.length_range]
    exact ⟨t, u, ht, (engineBeats_add hbeats32 _).trans hu, hstreams, hrun'.progress.succeeded, hrun'.progress.pos,
      hrun'.decodedLen⟩

/-- Settles O58: EMBED gives `embed(S, frame(P))`, from which `extract` gives the payload back (R103). -/
theorem extractGivesBackWhatEmbedHid : Obligations.ExtractGivesBackWhatEmbedHid := by
  intro s p smp hs hp hlen hcount hfits hpIn hsIn hsOut
  obtain ⟨t, u, bits, out, ht, hu, hframe, hembed, hstreams, hsucceeded, _⟩ :=
    embedCommandGivesEmbedOfFrame s p [] smp [] hs hp hlen hcount hfits (by simpa using hpIn) (by simpa using hsIn)
  refine ⟨t, u, ht, hu, hsucceeded, fun v hv hcount' hsIn' => ?_⟩
  have hextract : extract out = .ok p := extractOfEmbedOfFrame _ smp out p bits (by decide) hframe hembed
  have hout : out.length = smp.length := by
    obtain ⟨_, rfl⟩ := (embed_ok_iff smp out bits).mp hembed
    exact embedBits_length smp bits
  have hvIn : v.streams.sIn = out ++ [] := by rw [hsIn', hstreams, hsOut, List.nil_append, List.append_nil]
  have hrun := extractCommandGivesExtract v out [] hv (hcount'.trans hout.symm) hvIn
  rw [hextract] at hrun
  obtain ⟨t', u', ht', hu', hstreams', hsucceeded', _, hdec⟩ := hrun
  exact ⟨t', u', ht', hu', hsucceeded', hdec, by rw [hstreams']⟩

/-- Settles O59: both commands give `embed(S, frame(P))`, and both compare the framed bit count with the samples
(R93). -/
theorem embedIsFrameThenEmbedRaw : Obligations.EmbedIsFrameThenEmbedRaw := by
  constructor
  · intro s f r p smp hs hf hr hp hfits hlen hcount hpIn hsIn hsOut hlenF hpInF hbOutF hbits hcountR hsInR hsOutR
    obtain ⟨s1, s2, bits, out, hs1, hs2, hframe, hembed, hstreams, hsucceeded, _⟩ :=
      embedCommandGivesEmbedOfFrame s p [] smp [] hs hp hlen hcount hfits (by simpa using hpIn) (by simpa using hsIn)
    obtain ⟨f1, f2, bits', hf1, hf2, hframe', hbitsLen, hstreamsF, hsucceededF, _⟩ :=
      frameCommandGivesFrame f p [] hf hp hlenF (by simpa using hpInF)
    obtain rfl : bits = bits' := Except.ok.inj (hframe.symm.trans hframe')
    refine ⟨s1, s2, f1, f2, hs1, hs2, hsucceeded, hf1, hf2, hsucceededF, fun hbIn => ?_⟩
    have hbInR : r.streams.bIn = bits ++ [] := by rw [hbIn, hstreamsF, hbOutF, List.nil_append, List.append_nil]
    obtain ⟨r1, r2, out', hr1, hr2, hembed', hstreamsR, hsucceededR, _⟩ :=
      embedRawCommandGivesEmbed r bits [] smp [] hr (hbits.trans hbitsLen.symm) hcountR (by rwa [hbitsLen]) hbInR
        (by simpa using hsInR)
    obtain rfl : out = out' := Except.ok.inj (hembed.symm.trans hembed')
    exact ⟨r1, r2, hr1, hr2, hsucceededR, by rw [hstreamsR, hstreams, hsOut, hsOutR]⟩
  · intro s r hs hr hlen hshort hbits hcount
    obtain ⟨hembedFails, hrawFails⟩ := capacityExceededAtAcceptance
    obtain ⟨s1, hs1, _, _, _, _, _, hdone, hcode, hA, hB⟩ := hembedFails s hs hlen hshort
    obtain ⟨r1, hr1, _, _, _, _, _, hdone', hcode', hA', hB'⟩ := hrawFails r hr (by rwa [hcount, hbits])
    refine ⟨s1, r1, hs1, hr1, hdone, hdone', hcode, hcode', ?_, ?_⟩
    · exact BitVec.eq_of_toNat_eq (by rw [hA, hA', hbits])
    · exact BitVec.eq_of_toNat_eq (by rw [hB, hB', hcount])

end Sys2Proof.Proofs
end
